-- ==== Sys2Proof/Word.lean ====
section
/-! DEFINITION. The two word types of the block and their zero extension (spec R10, R20). -/

namespace Sys2Proof

/-- `u32`: the width of the four block registers and of a command word (R20, R70). -/
abbrev Word := BitVec 32

/-- `u8`: a buffer byte, a slot byte, a CRC (R10). -/
abbrev Byte := BitVec 8

/-- `zext_32` of a byte (R10). -/
def Byte.zext (v : Byte) : Word := v.setWidth 32

/-- `zext_8` of a bit (R10). -/
def Byte.ofBit (b : Bool) : Byte := if b then 1#8 else 0#8

end Sys2Proof
end

