-- ==== Sys2Proof/Syntax.lean ====
section
/-! DEFINITION. The twelve commands of the block (spec R73), each with the operands it uses (R74). -/

namespace Sys2Proof

/-- One constructor per row of spec/opcode_table.json.
A field a command does not use (R75) is no operand of it, so it has no place here.
`len` is the count `zext_32(LEN)`, 0 to 65535 (R70, R74; checked in WellFormed.lean); the buffer base is
register `ADDR`, which is no part of the command word (R22). -/
inductive Instr where
  /-- RESET (R160) -/
  | reset
  /-- SEND_BYTE (R165): `data` is `DATA` -/
  | sendByte (data : Byte)
  /-- SEND_BYTES (R170) -/
  | sendBytes (len : Nat)
  /-- RECV_BYTE (R175) -/
  | recvByte
  /-- RECV_BYTES (R180) -/
  | recvBytes (len : Nat)
  /-- SELECT_DEVICE (R195) -/
  | selectDevice
  /-- SELECT_ALL (R200) -/
  | selectAll
  /-- WRITE_BIT (R185): `bit` is `DATA[0]` -/
  | writeBit (bit : Bool)
  /-- READ_BIT (R190) -/
  | readBit
  /-- CRC8 (R135) -/
  | crc8 (len : Nat)
  /-- ENCODE_BIT (R110): `bit` is `DATA[0]` -/
  | encodeBit (bit : Bool)
  /-- DECODE_BIT (R115): `data` is the observed byte -/
  | decodeBit (data : Byte)
deriving DecidableEq, Repr

end Sys2Proof
end

