-- ==== Sys2Proof/WellFormed.lean ====
section
/-! DEFINITION. Which commands a command word can carry: the count fits the 16-bit field `LEN` (spec R70). -/

namespace Sys2Proof

/-- `LEN` is "a byte count ..., unsigned, 0 to 65535" (R70, R74).
The other operands are typed at their field's width (`DATA`: a byte; `DATA[0]`: a bit). -/
def Instr.wf : Instr → Bool
  | .sendBytes len => len ≤ 65535
  | .recvBytes len => len ≤ 65535
  | .crc8 len => len ≤ 65535
  | .reset => true
  | .sendByte _ => true
  | .recvByte => true
  | .selectDevice => true
  | .selectAll => true
  | .writeBit _ => true
  | .readBit => true
  | .encodeBit _ => true
  | .decodeBit _ => true

end Sys2Proof
end

