-- ==== Sys2Proof/Decode.lean ====
section
/-! DEFINITION. The command word: its fields, the decoder, total on every word, and the encoder (spec R70 to R76). -/

namespace Sys2Proof

/-- `OPC`, bits 7:0 (R70). -/
def opcField (w : Word) : Byte := w.extractLsb' 0 8

/-- `DATA`, bits 15:8 (R70). -/
def dataField (w : Word) : Byte := w.extractLsb' 8 8

/-- `LEN`, bits 31:16 (R70). -/
def lenField (w : Word) : BitVec 16 := w.extractLsb' 16 16

/-- `DATA[0]`, command bit 8 (R74). -/
def bitField (w : Word) : Bool := (dataField w).getLsbD 0

/-- Why a word names no command. -/
inductive DecodeError where
  /-- `OPC` is 0x00 or 0x0D to 0xFF (R72). -/
  | illegalOpcode (opc : Byte)
deriving DecidableEq, Repr

/-- R71: the decode depends on `OPC` only; fields the command does not use are ignored (R75). -/
def decode (w : Word) : Except DecodeError Instr :=
  match (opcField w).toNat with
  | 0x01 => .ok .reset
  | 0x02 => .ok (.sendByte (dataField w))
  | 0x03 => .ok (.sendBytes (lenField w).toNat)
  | 0x04 => .ok .recvByte
  | 0x05 => .ok (.recvBytes (lenField w).toNat)
  | 0x06 => .ok .selectDevice
  | 0x07 => .ok .selectAll
  | 0x08 => .ok (.writeBit (bitField w))
  | 0x09 => .ok .readBit
  | 0x0A => .ok (.crc8 (lenField w).toNat)
  | 0x0B => .ok (.encodeBit (bitField w))
  | 0x0C => .ok (.decodeBit (dataField w))
  | _ => .error (.illegalOpcode (opcField w))

/-- The opcode of a command (R73). -/
def opcodeOf : Instr → Byte
  | .reset => 0x01#8
  | .sendByte _ => 0x02#8
  | .sendBytes _ => 0x03#8
  | .recvByte => 0x04#8
  | .recvBytes _ => 0x05#8
  | .selectDevice => 0x06#8
  | .selectAll => 0x07#8
  | .writeBit _ => 0x08#8
  | .readBit => 0x09#8
  | .crc8 _ => 0x0A#8
  | .encodeBit _ => 0x0B#8
  | .decodeBit _ => 0x0C#8

/-- The `DATA` field of a command's word; 0 where the command does not use it (R79). -/
def dataOf : Instr → Byte
  | .sendByte data => data
  | .writeBit bit => Byte.ofBit bit
  | .encodeBit bit => Byte.ofBit bit
  | .decodeBit data => data
  | .reset => 0#8
  | .sendBytes _ => 0#8
  | .recvByte => 0#8
  | .recvBytes _ => 0#8
  | .selectDevice => 0#8
  | .selectAll => 0#8
  | .readBit => 0#8
  | .crc8 _ => 0#8

/-- The `LEN` field of a command's word; 0 where the command does not use it (R79). -/
def lenOf : Instr → BitVec 16
  | .sendBytes len => BitVec.ofNat 16 len
  | .recvBytes len => BitVec.ofNat 16 len
  | .crc8 len => BitVec.ofNat 16 len
  | .reset => 0#16
  | .sendByte _ => 0#16
  | .recvByte => 0#16
  | .selectDevice => 0#16
  | .selectAll => 0#16
  | .writeBit _ => 0#16
  | .readBit => 0#16
  | .encodeBit _ => 0#16
  | .decodeBit _ => 0#16

/-- `zext_32(LEN) << 16 | zext_32(DATA) << 8 | OPC` (R79). -/
def packWord (len : BitVec 16) (data opc : Byte) : Word :=
  len.setWidth 32 <<< 16 ||| data.zext <<< 8 ||| opc.zext

/-- The word a command assembles to: its fields, unused fields 0 (R79). -/
def encode (i : Instr) : Word :=
  packWord (lenOf i) (dataOf i) (opcodeOf i)

/-- The command the decoder reads from a word of spec/opcode_table.json: `nbits` bits, numbered from bit 0, the bits
above them 0.
A command word is one 32-bit register write (R61, R70), so its bits need no byte order (log 13). -/
def decodeTableWord (nbits w : Nat) : Option Instr :=
  match decode (BitVec.ofNat 32 (w % 2 ^ nbits)) with
  | .ok i => some i
  | .error _ => none

end Sys2Proof
end

