-- ==== Sys2Proof/Config.lean ====
section
/-! DEFINITION. The constants the source settles, the parameters the spec leaves open, and the free values
(spec R8, R9, R13, R14, R232, R233). -/

namespace Sys2Proof

/-- The two abstract transport rates, two distinct symbols with no number (R9). -/
inductive Rate where
  | data   -- `DATA_RATE`
  | reset  -- `RESET_RATE`
deriving DecidableEq, Repr

/-- What one `Xfer` answers (R13, R231). -/
inductive Answer where
  | ok (rx : Byte)
  | timeout
deriving DecidableEq, Repr, Inhabited

/-- One call the block makes to its transport, with the answer it got (R13, R19). -/
inductive TransportCall where
  | xfer (tx : Byte) (answer : Answer)
  | setSpeed (rate : Rate)
  | reinit
deriving DecidableEq, Repr

/-- `TIMEOUT_POLICY` in {CONTINUE, ABORT} (R151). -/
inductive TimeoutPolicy where
  | contin  -- CONTINUE
  | abort   -- ABORT
deriving DecidableEq, Repr, Inhabited

/-- The buffer addresses `base` to `base + size - 1`. -/
structure Region where
  base : Nat
  size : Nat
deriving DecidableEq, Repr

/-- The parameters of R8 that are the platform's. "The model takes the following parameters": they are one field of
State, read by commands and changed by none, so that a statement about every state is a statement about every
value of them (log 2). -/
structure Params where
  /-- `TIMEOUT_POLICY` (R151, decision D11) -/
  timeoutPolicy : TimeoutPolicy
  /-- `RESET_PATTERN` (R77, decision D14) -/
  resetPattern : Byte
  /-- `MATCH_ROM_CMD` (R78, decision D19) -/
  matchRomCmd : Byte
  /-- `SKIP_ROM_CMD` (R78, decision D19) -/
  skipRomCmd : Byte
  /-- `WIRED_AND` (R233, decision D13) -/
  wiredAnd : Bool
  /-- `MemAdmit`, as the regions whose union it is (R53, decision D8) -/
  memAdmit : List Region
deriving DecidableEq, Repr

/-- `SLOT_ONE` (R8) -/
def Config.slotOne : Byte := 0xFF#8

/-- `SLOT_ZERO` (R8) -/
def Config.slotZero : Byte := 0x00#8

/-- `RELEASE` (R8) -/
def Config.release : Byte := 0xFF#8

/-- `CRC_FEEDBACK` (R8) -/
def Config.crcFeedback : Byte := 0x8C#8

/-- `CRC_INIT` (R8) -/
def Config.crcInit : Byte := 0x00#8

/-- `ROM_LEN`, in bytes (R8) -/
def Config.romLen : Nat := 8

/-- `ADDR_W`, in bits (R8, decision D8) -/
def Config.addrW : Nat := 32

/-- `TIMEOUT_POLICY` of the machine that leaves reset: OPEN, so no value is known (log 2). -/
opaque Config.timeoutPolicy : TimeoutPolicy

/-- `RESET_PATTERN` of the machine that leaves reset: OPEN (log 2). -/
opaque Config.resetPattern : Byte

/-- `MATCH_ROM_CMD` of the machine that leaves reset: OPEN (log 2). -/
opaque Config.matchRomCmd : Byte

/-- `SKIP_ROM_CMD` of the machine that leaves reset: OPEN (log 2). -/
opaque Config.skipRomCmd : Byte

/-- The answer of the `n`th `Xfer` where State lists none: a draw (R232; log 3). -/
opaque Config.freeAnswer : Nat → Answer

/-- `draw_bit()`: the `n`th draw, as a bit (R14; log 4). -/
opaque Config.drawBit : Nat → Bool

/-- `draw_u8()`: the `n`th draw, as a byte (R14; log 4). -/
opaque Config.drawByte : Nat → Byte

/-- The parameters of the machine that leaves reset.
`WIRED_AND` is false there because R8 says so; `MemAdmit` is every 32-bit address: R252 item 2 asks that every
buffer the host will name be admitted before the first command (log 5, DESIGN CHOICE). -/
def Config.params : Params where
  timeoutPolicy := Config.timeoutPolicy
  resetPattern := Config.resetPattern
  matchRomCmd := Config.matchRomCmd
  skipRomCmd := Config.skipRomCmd
  wiredAnd := false
  memAdmit := [⟨0, 2 ^ Config.addrW⟩]

end Sys2Proof
end

