-- ==== Sys2Proof/Machine/BitCodec.lean ====
section
/-! DEFINITION. The bit codec: one slot to one byte and back, one byte to eight slots and back (spec R100 to R107). -/

namespace Sys2Proof.Machine

/-- `enc_bit` (R100). -/
def encBit (b : Bool) : Byte := if b then Config.slotOne else Config.slotZero

/-- `dec_bit` (R101): 1 exactly when the observed byte is 0xFF. -/
def decBit (x : Byte) : Bool := decide (x = 0xFF#8)

/-- The slot numbers of a byte, in the order they are made (R15, R103). -/
def slotIndices : List (BitVec 3) := [0#3, 1#3, 2#3, 3#3, 4#3, 5#3, 6#3, 7#3]

/-- `encode_byte` (R104): slot `i` carries bit `b[i]`. -/
def encodeByte (b : Byte) : List Byte := slotIndices.map (fun i => encBit (b.getLsbD i.toNat))

/-- `acc | (zext_8(bit) << i)` (R105, R154). -/
def accBit (acc : Byte) (i : BitVec 3) (bit : Bool) : Byte := acc ||| (Byte.ofBit bit <<< i.toNat)

/-- `decode_bits` (R105), over the first eight bytes of `x`. -/
def decodeBits (x : List Byte) : Byte :=
  (slotIndices.zip x).foldl (fun acc ix => accBit acc ix.1 (decBit ix.2)) 0x00#8

end Sys2Proof.Machine
end

