-- ==== Sys2Proof/Machine/Memory.lean ====
section
/-! DEFINITION. Buffer memory as plain data: rising addresses, no entry equal to what an unlisted address reads as
(spec R52). -/

namespace Sys2Proof.Machine

/-- Buffer memory: the bytes written and not equal to `unwrittenByte`. -/
abbrev Memory := List Host.Cell

/-- What an address nothing has written reads as: the spec gives buffer memory no contents at reset
(log 6, DESIGN CHOICE). -/
def unwrittenByte : Byte := 0x00#8

/-- The byte at `a` (R52). -/
def Memory.read : Memory → Nat → Byte
  | [], _ => unwrittenByte
  | (b, v) :: rest, a => if a = b then v else Memory.read rest a

/-- Set the byte at `a` to `v` and no other (R52), keeping the canonical form. -/
def Memory.write : Memory → Nat → Byte → Memory
  | [], a, v => if v = unwrittenByte then [] else [(a, v)]
  | (b, u) :: rest, a, v =>
    if a < b then (if v = unwrittenByte then (b, u) :: rest else (a, v) :: (b, u) :: rest)
    else if a = b then (if v = unwrittenByte then rest else (a, v) :: rest)
    else (b, u) :: Memory.write rest a v

/-- Every listed address is at least `lo`, addresses rise strictly, and no listed byte is `unwrittenByte`. -/
def Memory.wfFrom : Nat → Memory → Bool
  | _, [] => true
  | lo, (b, u) :: rest => decide (lo ≤ b) && decide (u ≠ unwrittenByte) && Memory.wfFrom (b + 1) rest

/-- The canonical form. -/
def Memory.wf (m : Memory) : Bool := Memory.wfFrom 0 m

end Sys2Proof.Machine
end

