-- ==== Sys2Proof/Machine/State.lean ====
section
/-! DEFINITION. The state of the block and of what stands around it, why a step can stop, and the state after block
reset (spec 10_state.md, R250). -/

namespace Sys2Proof.Machine

/-- `STATUS.SESSION`, the source's three values (R24, R26). -/
inductive Session where
  | ok
  | timeout
  | mismatch
deriving DecidableEq, Repr

/-- The sequencer's hidden state (R29). -/
structure Seq where
  /-- `seq.op`: the opcode being performed; `none` is IDLE -/
  op : Option Byte
  /-- `seq.j`: the index of the byte sent, received or checksummed -/
  j : BitVec 16
  /-- `seq.i`: the index of the slot inside the byte -/
  i : BitVec 3
  /-- `seq.acc`: the byte being assembled or sent -/
  acc : Byte
  /-- `seq.crc`: the CRC accumulator -/
  crc : Byte
deriving DecidableEq, Repr

/-- One thing the outside does to the block (R18, R239): the steps of a run are these, in the host's order (R27). -/
inductive HostAction where
  /-- a register write, `width` bits at byte `offset` (R54) -/
  | write (width offset : Nat) (value : Word)
  /-- a register read (R54) -/
  | read (width offset : Nat)
  /-- a write of one buffer byte by the host between commands (R52; log 9) -/
  | poke (a : Nat) (v : Byte)
  /-- a read of one buffer byte by the host between commands (R52; log 9) -/
  | peek (a : Nat)
  /-- block reset (R250; log 10) -/
  | blockReset
deriving DecidableEq, Repr

/-- Everything the spec gives the block (registers, sequencer, buffer memory), the parameters it runs under, and the
model's own record of its outside: the answers to come, the calls made, the host's actions to come, the values its
reads returned. -/
structure State where
  /-- `CMD` (R21) -/
  cmd : Word
  /-- `ADDR` (R22) -/
  addr : Word
  /-- `RESULT` (R23) -/
  result : Word
  /-- `STATUS.SESSION`, bits 1:0 (R24, R26) -/
  session : Session
  /-- `STATUS.CMDERR`, bit 2 (R24, R30) -/
  cmdErr : Bool
  /-- `STATUS.RATE`, bit 3 (R24, R31) -/
  rate : Rate
  /-- the sequencer (R29) -/
  seq : Seq
  /-- buffer memory (R33, R52) -/
  mem : Memory
  /-- the parameters (R8; log 2) -/
  cfg : Params
  /-- model: the transport's next answers, first one first; past its end they are `Config.freeAnswer` (log 3) -/
  answers : List Answer
  /-- model: how many `Xfer` were made (log 3) -/
  xferCount : Nat
  /-- model: how many draws were made (log 4) -/
  drawCount : Nat
  /-- model: the transport calls made, oldest first (R19, R237; log 17) -/
  calls : List TransportCall
  /-- model: the host's actions to come, first one first (R27) -/
  host : List HostAction
  /-- model: the values the host's reads returned, oldest first (R19; log 17) -/
  reads : List Word
deriving DecidableEq, Repr

/-- Why the machine has no next step (R17 "stuck"). Both stop for good; each keeps the state it stopped in (log 15). -/
inductive Fault where
  /-- The sequencer is stuck at a buffer request at `a` that is not admitted (R53, R225). Raised by SEND_BYTES,
  RECV_BYTES, SELECT_DEVICE, CRC8. Safe: the spec says the command never ends. `held` is what had happened. -/
  | bufferStuck (a : Nat) (held : State)
  /-- The host is stuck at a register access of another width or offset (R54), or at a buffer byte that is not
  admitted (log 9). Raised by the host port. Safe. `held` is the state, unchanged. -/
  | hostStuck (action : HostAction) (held : State)
deriving DecidableEq, Repr

/-- Why the model gives an instruction no meaning. -/
inductive Refusal where
  /-- exec has no meaning for this mnemonic yet. Raised by refused arms of exec; there is none. Safe. -/
  | notModelled (mnemonic : String)
deriving DecidableEq, Repr

/-- The sequencer between commands: IDLE; the other fields "have no meaning" (R29, R250), held at 0
(log 7, DESIGN CHOICE). -/
def Seq.idle : Seq := { op := none, j := 0#16, i := 0#3, acc := 0#8, crc := 0#8 }

/-- The machine right after block reset (R250), with nothing asked of it, nothing answered, nothing sent. -/
def State.reset : State where
  cmd := 0#32
  addr := 0#32
  result := 0#32
  session := .ok
  cmdErr := false
  rate := .data
  seq := Seq.idle
  mem := []
  cfg := Config.params
  answers := []
  xferCount := 0
  drawCount := 0
  calls := []
  host := []
  reads := []

end Sys2Proof.Machine
end

