-- ==== Sys2Proof/Machine/Flags.lean ====
section
/-! DEFINITION. `STATUS`: the codes of its fields, the word the host reads, and its writers (spec R24, R26, R30, R31). -/

namespace Sys2Proof.Machine

/-- The 2-bit code of `STATUS.SESSION`; code 3 is never produced (R24). -/
def Session.code : Session → BitVec 2
  | .ok => 0#2
  | .timeout => 1#2
  | .mismatch => 2#2

/-- The code of `STATUS.RATE` (R24). -/
def rateCode : Rate → BitVec 1
  | .data => 0#1
  | .reset => 1#1

/-- `STATUS` as the host reads it: `RATE` at bit 3, `CMDERR` at bit 2, `SESSION` at bits 1:0, bits 31:4 zero (R24). -/
def State.statusWord (s : State) : Word :=
  (rateCode s.rate).setWidth 32 <<< 3 ||| (Byte.ofBit s.cmdErr).zext <<< 2 ||| s.session.code.setWidth 32

/-- `STATUS.SESSION <- v` (R26). -/
def State.setSession (v : Session) (s : State) : State := { s with session := v }

/-- `STATUS.CMDERR <- v` (R30). -/
def State.setCmdErr (v : Bool) (s : State) : State := { s with cmdErr := v }

/-- `STATUS.RATE <- v` (R31). -/
def State.setRate (v : Rate) (s : State) : State := { s with rate := v }

end Sys2Proof.Machine
end

