-- ==== Sys2Proof/Machine/Operands.lean ====
section
/-! DEFINITION. The one addressing form of the block: bytes at `ADDR + j` (spec R22, R50, R53). -/

namespace Sys2Proof.Machine

/-- `zext(ADDR[ADDR_W-1:0])` (R22, R50). -/
def State.base (s : State) : Nat := s.addr.toNat % 2 ^ Config.addrW

/-- `EA(j)`, an exact integer with no wrap-around (R50). -/
def effAddr (base j : Nat) : Nat := base + j

/-- Is `a` in the region? -/
def regionHolds (g : Region) (a : Nat) : Bool := decide (g.base ≤ a) && decide (a < g.base + g.size)

/-- A buffer request at `a` is admitted iff `a < 2^ADDR_W` and `MemAdmit(a)` (R53). -/
def admits (p : Params) (a : Nat) : Bool :=
  decide (a < 2 ^ Config.addrW) && p.memAdmit.any (fun g => regionHolds g a)

/-- Are the `n` bytes from `EA(0)` all admitted? -/
def admitsSpan (p : Params) (base n : Nat) : Bool :=
  (List.range n).all (fun j => admits p (effAddr base j))

/-- The `n` buffer bytes from `EA(0)`, ascending (R51). -/
def spanBytes (m : Memory) (base n : Nat) : List Byte :=
  (List.range n).map (fun j => m.read (effAddr base j))

end Sys2Proof.Machine
end

