-- ==== Sys2Proof/Machine/Ops.lean ====
section
/-! DEFINITION. The named operations every command is made of: register writes, the transport primitives, the slot
functions, buffer accesses, `abort`, a stuck request, and the illegal-command outcome (spec R13, R14, R53, R150 to
R154, R223, R250). -/

namespace Sys2Proof.Machine

/-! ## One register, one writer -/

/-- `CMD <- w` (R21). -/
def State.setCmd (w : Word) (s : State) : State := { s with cmd := w }

/-- `ADDR <- w` (R22). -/
def State.setAddr (w : Word) (s : State) : State := { s with addr := w }

/-- `RESULT <- zext_32(v)` (R23). -/
def State.setResult (v : Byte) (s : State) : State := { s with result := v.zext }

/-- The sequencer's fields (R29). -/
def State.setSeq (q : Seq) (s : State) : State := { s with seq := q }

/-- Buffer memory. -/
def State.setMem (m : Memory) (s : State) : State := { s with mem := m }

/-- The host's actions to come. -/
def State.setHost (h : List HostAction) (s : State) : State := { s with host := h }

/-- A host read returned `v` (R19). -/
def State.logRead (v : Word) (s : State) : State := { s with reads := s.reads ++ [v] }

/-- One transport call was made (R19). -/
def State.logCall (c : TransportCall) (s : State) : State := { s with calls := s.calls ++ [c] }

/-- One draw was made (R14). -/
def State.countDraw (s : State) : State := { s with drawCount := s.drawCount + 1 }

/-- One `Xfer` has its answer: the next one is another. -/
def State.takeAnswer (s : State) : State :=
  { s with answers := s.answers.tail, xferCount := s.xferCount + 1 }

/-! ## Draws (R14) -/

/-- What `draw_bit()` yields next (log 4). -/
def State.nextDrawBit (s : State) : Bool := Config.drawBit s.drawCount

/-- What `draw_u8()` yields next (log 4). -/
def State.nextDrawByte (s : State) : Byte := Config.drawByte s.drawCount

/-! ## The transport (R13, R231 to R233) -/

/-- The answer the transport gives next, before the wired-AND premise (R232; log 3). -/
def State.nextAnswer (s : State) : Answer :=
  match s.answers with
  | a :: _ => a
  | [] => Config.freeAnswer s.xferCount

/-- Under `WIRED_AND` a bit observed high was sent high: `rx & ~tx = 0` (R233; log 8). -/
def observed (wiredAnd : Bool) (tx : Byte) : Answer → Answer
  | .ok rx => .ok (if wiredAnd then rx &&& tx else rx)
  | .timeout => .timeout

/-- `Xfer(tx)` (R13): one transport round trip. -/
def xfer (p : Params) (tx : Byte) (s : State) : Answer × State :=
  let a := observed p.wiredAnd tx s.nextAnswer
  (a, s.takeAnswer.logCall (.xfer tx a))

/-- `SetSpeed(r); STATUS.RATE <- r` (R31, R160). -/
def State.setSpeed (r : Rate) (s : State) : State := (s.logCall (.setSpeed r)).setRate r

/-- `Reinit(); STATUS.SESSION <- OK` (R160). -/
def State.recover (s : State) : State := (s.logCall .reinit).setSession .ok

/-- `Slot(tx)` (R150): a timeout writes TIMEOUT and yields no byte. -/
def slot (p : Params) (tx : Byte) (s : State) : Option Byte × State :=
  match (xfer p tx s).1 with
  | .ok rx => (some rx, (xfer p tx s).2)
  | .timeout => (none, (xfer p tx s).2.setSession .timeout)

/-! ## A command under way: `abort` and a stuck request (R14, R53, R226) -/

/-- A command under way.
`aborted`: it ended at once (R14), so no later statement of it acts.
`stuckAt`: the sequencer is stuck at a buffer request at that address (R53), so nothing acts any more.
Both end what is done; the state is what had been done by then (R226 item 3). -/
structure Run where
  st : State
  aborted : Bool
  stuckAt : Option Nat
deriving DecidableEq, Repr

/-- A command that starts. -/
def Run.start (s : State) : Run := { st := s, aborted := false, stuckAt := none }

/-- Has nothing ended the command yet? -/
def Run.going (r : Run) : Bool := !r.aborted && r.stuckAt.isNone

/-- A statement that only writes state. -/
def Run.act (f : State → State) (r : Run) : Run :=
  { st := if r.going then f r.st else r.st, aborted := r.aborted, stuckAt := r.stuckAt }

/-- `Slot(tx)`, and `abort` if it timed out and `TIMEOUT_POLICY` is ABORT (R151). -/
def Run.slot (p : Params) (tx : Byte) (r : Run) : Option Byte × Run :=
  let x := Machine.slot p tx r.st
  (x.1,
    { st := if r.going then x.2 else r.st
      aborted := r.aborted || (r.going && x.1.isNone && decide (p.timeoutPolicy = .abort))
      stuckAt := r.stuckAt })

/-- `WriteSlot(b)` (R152): the observed byte is discarded. -/
def Run.writeSlot (p : Params) (b : Bool) (r : Run) : Run := (Run.slot p (encBit b) r).2

/-- `ReadSlot()` (R153): a timed-out slot under CONTINUE yields `draw_bit()`. -/
def Run.readSlot (p : Params) (r : Run) : Bool × Run :=
  let x := Run.slot p Config.release r
  let bit := match x.1 with
    | some rx => decBit rx
    | none => x.2.st.nextDrawBit
  (bit, x.2.act (fun s => if x.1.isNone then s.countDraw else s))

/-- `seq.i <- i; WriteSlot(seq.acc[i])` (R154). -/
def Run.sendSlot (p : Params) (r : Run) (i : BitVec 3) : Run :=
  let r1 := r.act (fun s => s.setSeq { s.seq with i := i })
  r1.writeSlot p (r1.st.seq.acc.getLsbD i.toNat)

/-- `SendByteSlots(b)` (R154). -/
def Run.sendByteSlots (p : Params) (b : Byte) (r : Run) : Run :=
  slotIndices.foldl (Run.sendSlot p) (r.act (fun s => s.setSeq { s.seq with acc := b }))

/-- `seq.i <- i; seq.acc <- seq.acc | (zext_8(ReadSlot()) << i)` (R154). -/
def Run.recvSlot (p : Params) (r : Run) (i : BitVec 3) : Run :=
  let x := (r.act (fun s => s.setSeq { s.seq with i := i })).readSlot p
  x.2.act (fun s => s.setSeq { s.seq with acc := accBit s.seq.acc i x.1 })

/-- `RecvByteSlots()` (R154); the byte it returns is `seq.acc`. -/
def Run.recvByteSlots (p : Params) (r : Run) : Run :=
  slotIndices.foldl (Run.recvSlot p) (r.act (fun s => s.setSeq { s.seq with acc := 0x00#8 }))

/-- Stuck at `a` unless the request there is admitted (R53). -/
def Run.request (p : Params) (a : Nat) (r : Run) : Run :=
  { st := r.st
    aborted := r.aborted
    stuckAt := if admits p a then r.stuckAt else if r.going then some a else r.stuckAt }

/-- `MemRead(a, 1)` (R12, R52): the byte, and the command after the request. -/
def Run.memRead (p : Params) (a : Nat) (r : Run) : Byte × Run := (r.st.mem.read a, r.request p a)

/-- `MemWrite(a, 1, v)` (R12, R52). -/
def Run.memWrite (p : Params) (a : Nat) (v : Byte) (r : Run) : Run :=
  (r.request p a).act (fun s => s.setMem (s.mem.write a v))

/-! ## Start and end of a command -/

/-- A legal word was decoded: `STATUS.CMDERR <- 0`, and the sequencer performs `opc` (R29, R71). -/
def State.begin (opc : Byte) (s : State) : State :=
  (s.setCmdErr false).setSeq { s.seq with op := some opc }

/-- The sequencer is IDLE again (R29). -/
def State.complete (s : State) : State := s.setSeq { s.seq with op := none }

/-- The command completes, or is stuck for good at a request that is not admitted (R53, R225). -/
def Run.finish (r : Run) : Host.Outcome State Fault Refusal :=
  match r.stuckAt with
  | some a => .fault (.bufferStuck a r.st)
  | none => .next r.st.complete

/-- `raise IllegalCommand(opc)` (R72, R223): the one error outcome the block itself takes on a word.
There is no trap entry (R227) and no return (R228): the flag is set and the block is ready for the next command. -/
def State.raiseIllegalCommand (s : State) : State := s.setCmdErr true

/-- Block reset (R250): every register and the sequencer; no transport call and no memory access, so buffer memory and the
model's own fields stay (log 12). -/
def State.blockReset (s : State) : State :=
  { s with
    cmd := 0#32
    addr := 0#32
    result := 0#32
    session := .ok
    cmdErr := false
    rate := .data
    seq := Seq.idle }

end Sys2Proof.Machine
end

