-- ==== Sys2Proof/Machine/BusCommands.lean ====
section
/-! DEFINITION. The bus session commands (spec 42_bus_session.md). Every one runs whatever `SESSION` holds and whether or
not a RESET came first (R205), and none retries (R207). -/

namespace Sys2Proof.Machine

/-- The presence bit of a reset slot: 1 iff a byte other than the pattern was observed (R160, R224). -/
def presence (pattern : Byte) : Option Byte → Bool
  | some rx => decide (rx ≠ pattern)
  | none => false

/-- RESET's recovery: only if `SESSION` is not OK (R28, R160). -/
def recoverIfNeeded (s : State) : State := if s.session = .ok then s else s.recover

/-- RESET (R160). -/
def execReset (s : State) : Host.Outcome State Fault Refusal :=
  let p := s.cfg
  let x := slot p p.resetPattern ((recoverIfNeeded (s.begin 0x01#8)).setSpeed .reset)
  .next ((x.2.setSpeed .data).setResult (Byte.ofBit (presence p.resetPattern x.1))).complete

/-- SEND_BYTE (R165). -/
def execSendByte (data : Byte) (s : State) : Host.Outcome State Fault Refusal :=
  .next ((Run.start (s.begin 0x02#8)).sendByteSlots s.cfg data).st.complete

/-- Read and send `n` more bytes from index `j` on: the loop of R170 and R195 (R57: byte `j` is read just before its
first slot). -/
def Run.sendSpan (p : Params) (base : Nat) : Nat → Nat → Run → Run
  | 0, _, r => r
  | n + 1, j, r =>
    let x := (r.act (fun s => s.setSeq { s.seq with j := BitVec.ofNat 16 j })).memRead p (effAddr base j)
    Run.sendSpan p base n (j + 1) (x.2.sendByteSlots p x.1)

/-- SEND_BYTES (R170). -/
def execSendBytes (len : Nat) (s : State) : Host.Outcome State Fault Refusal :=
  (Run.sendSpan s.cfg s.base len 0 (Run.start (s.begin 0x03#8))).finish

/-- `RESULT <- zext_32(v)`, or a draw of the byte if the command was aborted (R175, "On abort"; R14). -/
def Run.resultOrDrawByte (r : Run) : State :=
  if r.aborted then (r.st.setResult r.st.nextDrawByte).countDraw else r.st.setResult r.st.seq.acc

/-- RECV_BYTE (R175). -/
def execRecvByte (s : State) : Host.Outcome State Fault Refusal :=
  .next ((Run.start (s.begin 0x04#8)).recvByteSlots s.cfg).resultOrDrawByte.complete

/-- Receive and store `n` more bytes from index `j` on: the loop of R180 (R57: byte `j` is written just after its eighth
slot). -/
def Run.recvSpan (p : Params) (base : Nat) : Nat → Nat → Run → Run
  | 0, _, r => r
  | n + 1, j, r =>
    let r1 := (r.act (fun s => s.setSeq { s.seq with j := BitVec.ofNat 16 j })).recvByteSlots p
    Run.recvSpan p base n (j + 1) (r1.memWrite p (effAddr base j) r1.st.seq.acc)

/-- RECV_BYTES (R180). -/
def execRecvBytes (len : Nat) (s : State) : Host.Outcome State Fault Refusal :=
  (Run.recvSpan s.cfg s.base len 0 (Run.start (s.begin 0x05#8))).finish

/-- WRITE_BIT (R185). -/
def execWriteBit (bit : Bool) (s : State) : Host.Outcome State Fault Refusal :=
  .next ((Run.start (s.begin 0x08#8)).writeSlot s.cfg bit).st.complete

/-- `RESULT <- zext_32(bit)`, or a draw of the bit if the command was aborted (R190, "On abort"; R14). -/
def resultOrDrawBit (x : Bool × Run) : State :=
  if x.2.aborted then (x.2.st.setResult (Byte.ofBit x.2.st.nextDrawBit)).countDraw
  else x.2.st.setResult (Byte.ofBit x.1)

/-- READ_BIT (R190). -/
def execReadBit (s : State) : Host.Outcome State Fault Refusal :=
  .next (resultOrDrawBit ((Run.start (s.begin 0x09#8)).readSlot s.cfg)).complete

/-- SELECT_DEVICE (R195): Match-ROM, then the 8 address bytes; no reset, no check of the CRC byte. -/
def execSelectDevice (s : State) : Host.Outcome State Fault Refusal :=
  (Run.sendSpan s.cfg s.base Config.romLen 0
    ((Run.start (s.begin 0x06#8)).sendByteSlots s.cfg s.cfg.matchRomCmd)).finish

/-- SELECT_ALL (R200): Skip-ROM. -/
def execSelectAll (s : State) : Host.Outcome State Fault Refusal :=
  .next ((Run.start (s.begin 0x07#8)).sendByteSlots s.cfg s.cfg.skipRomCmd).st.complete

end Sys2Proof.Machine
end

