-- ==== Sys2Proof/Machine/CodecCommands.lean ====
section
/-! DEFINITION. ENCODE_BIT and DECODE_BIT (spec R110, R115): no transport call, no buffer access. -/

namespace Sys2Proof.Machine

/-- ENCODE_BIT (R110): `RESULT <- zext_32(enc_bit(DATA[0]))`. -/
def execEncodeBit (bit : Bool) (s : State) : Host.Outcome State Fault Refusal :=
  .next ((s.begin 0x0B#8).setResult (encBit bit)).complete

/-- DECODE_BIT (R115): `RESULT <- zext_32(dec_bit(DATA))`. -/
def execDecodeBit (data : Byte) (s : State) : Host.Outcome State Fault Refusal :=
  .next ((s.begin 0x0C#8).setResult (Byte.ofBit (decBit data))).complete

end Sys2Proof.Machine
end

