-- ==== Sys2Proof/Machine/Crc.lean ====
section
/-! DEFINITION. The CRC-8 function (spec R130 to R133). -/

namespace Sys2Proof.Machine

/-- One iteration of the loop of `crc8_step`, on the accumulator and what is left of the input byte (R130). -/
def crcBitStep (cd : Byte × Byte) : Byte × Byte :=
  let mix := (cd.1 ^^^ cd.2) &&& 0x01#8
  let c := cd.1 >>> 1
  (if mix = 0x01#8 then c ^^^ Config.crcFeedback else c, cd.2 >>> 1)

/-- `n` iterations of it. -/
def crcLoop : Nat → Byte × Byte → Byte × Byte
  | 0, cd => cd
  | n + 1, cd => crcLoop n (crcBitStep cd)

/-- `crc8_step` (R130). -/
def crc8Step (c d : Byte) : Byte := (crcLoop 8 (c, d)).1

/-- `crc8` of a byte list, index 0 first (R131). -/
def crc8 (bytes : List Byte) : Byte := bytes.foldl crc8Step Config.crcInit

end Sys2Proof.Machine
end

