-- ==== Sys2Proof/Machine/CrcCommand.lean ====
section
/-! DEFINITION. CRC8 (spec R135). -/

namespace Sys2Proof.Machine

/-- Checksum `n` more bytes from index `j` on: the loop of R135; it writes `seq.j`, as R29 has it (log 16). -/
def Run.crcSpan (p : Params) (base : Nat) : Nat → Nat → Run → Run
  | 0, _, r => r
  | n + 1, j, r =>
    let x := (r.act (fun s => s.setSeq { s.seq with j := BitVec.ofNat 16 j })).memRead p (effAddr base j)
    Run.crcSpan p base n (j + 1)
      (x.2.act (fun s => s.setSeq { s.seq with crc := crc8Step s.seq.crc x.1 }))

/-- CRC8 (R135): `RESULT <- zext_32(seq.crc)`. -/
def execCrc8 (len : Nat) (s : State) : Host.Outcome State Fault Refusal :=
  ((Run.crcSpan s.cfg s.base len 0
      ((Run.start (s.begin 0x0A#8)).act (fun t => t.setSeq { t.seq with crc := Config.crcInit }))).act
    (fun t => t.setResult t.seq.crc)).finish

end Sys2Proof.Machine
end

