-- ==== Sys2Proof/Machine/Dispatch.lean ====
section
/-! DEFINITION. One arm per command: what performing it does (spec R73). -/

namespace Sys2Proof.Machine

def exec (i : Instr) (s : State) : Host.Outcome State Fault Refusal :=
  match i with
  | .reset => Sys2Proof.Machine.execReset s
  | .sendByte data => Sys2Proof.Machine.execSendByte data s
  | .sendBytes len => Sys2Proof.Machine.execSendBytes len s
  | .recvByte => Sys2Proof.Machine.execRecvByte s
  | .recvBytes len => Sys2Proof.Machine.execRecvBytes len s
  | .selectDevice => Sys2Proof.Machine.execSelectDevice s
  | .selectAll => Sys2Proof.Machine.execSelectAll s
  | .writeBit bit => Sys2Proof.Machine.execWriteBit bit s
  | .readBit => Sys2Proof.Machine.execReadBit s
  | .crc8 len => Sys2Proof.Machine.execCrc8 len s
  | .encodeBit bit => Sys2Proof.Machine.execEncodeBit bit s
  | .decodeBit data => Sys2Proof.Machine.execDecodeBit data s

end Sys2Proof.Machine
end

