-- ==== Sys2Proof/Machine/HostPort.lean ====
section
/-! DEFINITION. What one action of the outside does: register and buffer accesses, and block reset (spec R20 to R25, R52,
R54, R71, R250). -/

namespace Sys2Proof.Machine

/-- The four registers (R20). -/
inductive BlockReg where
  | cmd
  | addr
  | result
  | status
deriving DecidableEq, Repr

/-- The register's byte offset (R20). -/
def regOffset : BlockReg → Nat
  | .cmd => 0x00
  | .addr => 0x04
  | .result => 0x08
  | .status => 0x0C

/-- The register an access reaches: 32 bits wide, at one of the four offsets; no other is admitted (R54). -/
def regAt (width offset : Nat) : Option BlockReg :=
  if width ≠ 32 then none
  else if offset = 0x00 then some .cmd
  else if offset = 0x04 then some .addr
  else if offset = 0x08 then some .result
  else if offset = 0x0C then some .status
  else none

/-- What a host read of the register returns (R21 to R24); `RESULT[31:8]` always read 0 (R23). -/
def readReg (g : BlockReg) (s : State) : Word :=
  match g with
  | .cmd => s.cmd
  | .addr => s.addr
  | .result => s.result &&& 0x000000FF#32
  | .status => s.statusWord

/-- A host write of `w` to `CMD` (R21, R71): store it, decode it, perform the command or raise IllegalCommand. -/
def writeCmd (w : Word) (s : State) : Host.Outcome State Fault Refusal :=
  match decode w with
  | .ok i => exec i (s.setCmd w)
  | .error _ => .next (s.setCmd w).raiseIllegalCommand

/-- A host write of `w` to the register; writes to `RESULT` and `STATUS` are ignored (R21 to R24). -/
def writeReg (g : BlockReg) (w : Word) (s : State) : Host.Outcome State Fault Refusal :=
  match g with
  | .cmd => writeCmd w s
  | .addr => .next (s.setAddr w)
  | .result => .next s
  | .status => .next s

/-- One action `a`, the first of the host's list; `rest` are the ones after it.
A stuck action stays first for good, and the state is as it was (R54). -/
def hostStep (a : HostAction) (rest : List HostAction) (s : State) : Host.Outcome State Fault Refusal :=
  match a with
  | .write width offset value =>
    match regAt width offset with
    | some g => writeReg g value (s.setHost rest)
    | none => .fault (.hostStuck a s)
  | .read width offset =>
    match regAt width offset with
    | some g => .next ((s.setHost rest).logRead (readReg g s))
    | none => .fault (.hostStuck a s)
  | .poke b v =>
    if admits s.cfg b then .next ((s.setHost rest).setMem (s.mem.write b v)) else .fault (.hostStuck a s)
  | .peek b =>
    if admits s.cfg b then .next ((s.setHost rest).logRead (s.mem.read b).zext) else .fault (.hostStuck a s)
  | .blockReset => .next (s.setHost rest).blockReset

/-- Put a 32-bit write of `w` to `CMD` first among the host's actions. -/
def State.offerCommand (w : Word) (s : State) : State := s.setHost (.write 32 (regOffset .cmd) w :: s.host)

end Sys2Proof.Machine
end

