-- ==== Sys2Proof/Machine/Step.lean ====
section
/-! DEFINITION. One step: the host's next action, whole (spec R25, R27, R58). -/

namespace Sys2Proof.Machine

/-- One step.
The block fetches nothing (R27): its program is the host's list of actions, a command being one step (log 1).
With nothing to do it holds its state and waits (R238, R250; log 10). -/
def step (s : State) : Host.Outcome State Fault Refusal :=
  match s.host with
  | [] => .next s
  | a :: rest => hostStep a rest s

/-- `s` with the word of a command (numbered as the opcode table numbers it) as the host's next write to `CMD`
(log 11). -/
def State.withFetchWord (s : State) (nbits w : Nat) : State :=
  s.offerCommand (BitVec.ofNat 32 (w % 2 ^ nbits))

end Sys2Proof.Machine
end

