-- ==== Sys2Proof/Machine/Assembler.lean ====
section
/-! DEFINITION. The host command language: its actions, their words, its pseudo-instructions and its lines of text
(spec R79, R80). -/

namespace Sys2Proof.Machine

/-- One action of a host command program (R79). -/
inductive AsmAction where
  /-- `SETADDR imm32` -/
  | setAddr (w : Word)
  /-- a command line -/
  | command (i : Instr)
  /-- `CMD imm32`: a raw command word, legal or not -/
  | raw (w : Word)
  /-- `READ` of a register -/
  | read (g : BlockReg)
deriving DecidableEq, Repr

/-- The register access an action is (R79). -/
def assemble : AsmAction → HostAction
  | .setAddr w => .write 32 (regOffset .addr) w
  | .command i => .write 32 (regOffset .cmd) (encode i)
  | .raw w => .write 32 (regOffset .cmd) w
  | .read g => .read 32 (regOffset g)

/-- One action of the source text: an action proper, or a pseudo-instruction (R80). -/
inductive AsmStatement where
  | plain (a : AsmAction)
  /-- `SEND_BYTES a, n` -/
  | sendBytesAt (a : Word) (n : Nat)
  /-- `RECV_BYTES a, n` -/
  | recvBytesAt (a : Word) (n : Nat)
  /-- `CRC8 a, n` -/
  | crc8At (a : Word) (n : Nat)
  /-- `SELECT_DEVICE a` -/
  | selectDeviceAt (a : Word)
  /-- `MATCH_ROM a` -/
  | matchRom (a : Word)
  /-- `SKIP_ROM` -/
  | skipRom
  /-- `TOUCH_BIT 1` -/
  | touchBit1
deriving DecidableEq, Repr

/-- The expansions of R80. -/
def expand : AsmStatement → List AsmAction
  | .plain a => [a]
  | .sendBytesAt a n => [.setAddr a, .command (.sendBytes n)]
  | .recvBytesAt a n => [.setAddr a, .command (.recvBytes n)]
  | .crc8At a n => [.setAddr a, .command (.crc8 n)]
  | .selectDeviceAt a => [.setAddr a, .command .selectDevice]
  | .matchRom a => [.setAddr a, .command .selectDevice]
  | .skipRom => [.command .selectAll]
  | .touchBit1 => [.command .readBit]

/-! ## Text (what R79 leaves open of it: log 14) -/

/-- The token `cur` (read backwards), if it is not empty. -/
def flushToken (cur : List Char) : List (List Char) := if cur.isEmpty then [] else [cur.reverse]

/-- The tokens of a line: split at blanks, `,` and `:` alone, and nothing from `;` on (R79 `comment`). -/
def tokenize : List Char → List Char → List (List Char)
  | [], cur => flushToken cur
  | c :: rest, cur =>
    if c = ';' then flushToken cur
    else if c = ' ' ∨ c = '\t' then flushToken cur ++ tokenize rest []
    else if c = ',' ∨ c = ':' then flushToken cur ++ [c] :: tokenize rest []
    else tokenize rest (c :: cur)

/-- The value of a digit in base 10 or 16. -/
def digitValue (base : Nat) (c : Char) : Option Nat :=
  let v :=
    if 48 ≤ c.toNat ∧ c.toNat ≤ 57 then c.toNat - 48
    else if 97 ≤ c.toNat ∧ c.toNat ≤ 102 then c.toNat - 87
    else if 65 ≤ c.toNat ∧ c.toNat ≤ 70 then c.toNat - 55
    else base
  if v < base then some v else none

/-- The value of a run of digits after `acc`. -/
def digitsValue (base : Nat) : Nat → List Char → Option Nat
  | acc, [] => some acc
  | acc, c :: rest =>
    match digitValue base c with
    | some v => digitsValue base (acc * base + v) rest
    | none => none

/-- `imm ::= decimal | '0x' hex digits`, "unsigned, must fit the width named" (R79). -/
def parseImm (width : Nat) (t : List Char) : Option Nat :=
  let v :=
    match t with
    | '0' :: 'x' :: c :: rest => digitsValue 16 0 (c :: rest)
    | c :: rest => digitsValue 10 0 (c :: rest)
    | [] => none
  v.filter (fun n => decide (n < 2 ^ width))

/-- A register's name in a `READ` line (R79). -/
def parseReg (t : List Char) : Option BlockReg :=
  if t = ['R', 'E', 'S', 'U', 'L', 'T'] then some .result
  else if t = ['S', 'T', 'A', 'T', 'U', 'S'] then some .status
  else if t = ['C', 'M', 'D'] then some .cmd
  else if t = ['A', 'D', 'D', 'R'] then some .addr
  else none

/-- A command line that has no operand. -/
def parseBare (name : String) : Option AsmStatement :=
  if name = "RESET" then some (.plain (.command .reset))
  else if name = "RECV_BYTE" then some (.plain (.command .recvByte))
  else if name = "SELECT_DEVICE" then some (.plain (.command .selectDevice))
  else if name = "SELECT_ALL" then some (.plain (.command .selectAll))
  else if name = "READ_BIT" then some (.plain (.command .readBit))
  else if name = "SKIP_ROM" then some .skipRom
  else none

/-- A command line with one operand. -/
def parseUnary (name : String) (x : List Char) : Option AsmStatement :=
  if name = "SETADDR" then (parseImm 32 x).map (fun n => .plain (.setAddr (BitVec.ofNat 32 n)))
  else if name = "SEND_BYTE" then (parseImm 8 x).map (fun n => .plain (.command (.sendByte (BitVec.ofNat 8 n))))
  else if name = "SEND_BYTES" then (parseImm 16 x).map (fun n => .plain (.command (.sendBytes n)))
  else if name = "RECV_BYTES" then (parseImm 16 x).map (fun n => .plain (.command (.recvBytes n)))
  else if name = "WRITE_BIT" then (parseImm 1 x).map (fun n => .plain (.command (.writeBit (n == 1))))
  else if name = "CRC8" then (parseImm 16 x).map (fun n => .plain (.command (.crc8 n)))
  else if name = "ENCODE_BIT" then (parseImm 1 x).map (fun n => .plain (.command (.encodeBit (n == 1))))
  else if name = "DECODE_BIT" then (parseImm 8 x).map (fun n => .plain (.command (.decodeBit (BitVec.ofNat 8 n))))
  else if name = "CMD" then (parseImm 32 x).map (fun n => .plain (.raw (BitVec.ofNat 32 n)))
  else if name = "READ" then (parseReg x).map (fun g => .plain (.read g))
  else if name = "SELECT_DEVICE" then (parseImm 32 x).map (fun n => .selectDeviceAt (BitVec.ofNat 32 n))
  else if name = "MATCH_ROM" then (parseImm 32 x).map (fun n => .matchRom (BitVec.ofNat 32 n))
  else if name = "TOUCH_BIT" then (parseImm 1 x).bind (fun n => if n = 1 then some .touchBit1 else none)
  else none

/-- The address and the count of a pseudo-instruction `name a, n`. -/
def parseSpan (x y : List Char) (make : Word → Nat → AsmStatement) : Option AsmStatement :=
  match parseImm 32 x, parseImm 16 y with
  | some a, some n => some (make (BitVec.ofNat 32 a) n)
  | _, _ => none

/-- A pseudo-instruction with an address and a count. -/
def parseBinary (name : String) (x y : List Char) : Option AsmStatement :=
  if name = "SEND_BYTES" then parseSpan x y .sendBytesAt
  else if name = "RECV_BYTES" then parseSpan x y .recvBytesAt
  else if name = "CRC8" then parseSpan x y .crc8At
  else none

/-- The action of a line whose label is taken off. -/
def parseStatement : List (List Char) → Option AsmStatement
  | [m] => parseBare (String.ofList m)
  | [m, x] => parseUnary (String.ofList m) x
  | [m, x, [','], y] => parseBinary (String.ofList m) x y
  | _ => none

/-- `line ::= label? action comment?` (R79): the line's action, if it is one. -/
def parseLine (line : List Char) : Option AsmStatement :=
  match tokenize line [] with
  | _ :: [':'] :: rest => parseStatement rest
  | toks => parseStatement toks

/-- The host's actions of a program: its lines in order, each expanded and assembled; none if a line is no action. -/
def assembleProgram : List (List Char) → Option (List HostAction)
  | [] => some []
  | line :: rest =>
    match parseLine line, assembleProgram rest with
    | some st, some more => some ((expand st).map assemble ++ more)
    | _, _ => none

end Sys2Proof.Machine
end

