-- ==== Sys2Proof/Safety.lean ====
section
/-! DEFINITION. The terms claims are stated in: the answers a command uses, the calls, bits and bytes they stand for,
what a command leaves alone, and the invariant of the machine between commands. -/

namespace Sys2Proof.Machine

/-! ## The answers to come (spec R232) -/

/-- The next `n` answers, from a list of answers and the number of `Xfer` made. -/
def upcomingFrom : List Answer → Nat → Nat → List Answer
  | _, _, 0 => []
  | [], c, n + 1 => Config.freeAnswer c :: upcomingFrom [] (c + 1) n
  | a :: rest, c, n + 1 => a :: upcomingFrom rest (c + 1) n

/-- The answers the transport gives to the next `n` `Xfer` calls. -/
def State.upcoming (s : State) (n : Nat) : List Answer := upcomingFrom s.answers s.xferCount n

/-- Does one of them time out? -/
def sawTimeout (as : List Answer) : Bool := decide (Answer.timeout ∈ as)

/-- The answers up to and with the first timeout. -/
def throughTimeout : List Answer → List Answer
  | [] => []
  | .timeout :: _ => [.timeout]
  | .ok rx :: rest => .ok rx :: throughTimeout rest

/-- Of the answers a data command could use, the ones it does use (R151): all under CONTINUE, those through the first
timeout under ABORT. -/
def usedAnswers (policy : TimeoutPolicy) (as : List Answer) : List Answer :=
  match policy with
  | .contin => as
  | .abort => throughTimeout as

/-- Does ABORT end a command that is given these answers (R151)? -/
def abortsOn (policy : TimeoutPolicy) (as : List Answer) : Bool := decide (policy = .abort) && sawTimeout as

/-- The transport calls of the slots `txs`, as far as there are answers. -/
def slotCalls (wiredAnd : Bool) (txs : List Byte) (as : List Answer) : List TransportCall :=
  List.zipWith (fun tx a => TransportCall.xfer tx (observed wiredAnd tx a)) txs as

/-- The slots of a list of bytes, byte 0 first, bit 0 of each first (R51, R103). -/
def byteSlots (bytes : List Byte) : List Byte := bytes.flatMap encodeByte

/-- The slots of `n` bits read (R77). -/
def readSlots (n : Nat) : List Byte := List.replicate n Config.release

/-! ## The bits and bytes received (spec R105, R153, R154, R180) -/

/-- How many of the answers are timeouts. -/
def timeouts (as : List Answer) : Nat := as.countP (fun a => decide (a = .timeout))

/-- The bits read slots yield: decoded, or drawn where the slot timed out; `d` draws were made before. -/
def readBits : List Answer → Nat → List Bool
  | [], _ => []
  | .ok rx :: rest, d => decBit rx :: readBits rest d
  | .timeout :: rest, d => Config.drawBit d :: readBits rest (d + 1)

/-- The byte of eight bits, bit 0 first. -/
def byteOfBits (bits : List Bool) : Byte :=
  (slotIndices.zip bits).foldl (fun acc ib => accBit acc ib.1 ib.2) 0x00#8

/-- The whole bytes RECV_BYTES receives: all `n` under CONTINUE, those before the first timeout's byte under ABORT
(R180). -/
def bytesReceived (policy : TimeoutPolicy) : Nat → List Answer → Nat → List Byte
  | 0, _, _ => []
  | n + 1, as, d =>
    if abortsOn policy (as.take 8) then []
    else byteOfBits (readBits (as.take 8) d) ::
      bytesReceived policy n (as.drop 8) (d + timeouts (as.take 8))

/-! ## Buffers (spec R50, R225) -/

/-- How many buffer bytes a command reaches (R50). -/
def bufferBytes : Instr → Nat
  | .sendBytes len => len
  | .recvBytes len => len
  | .selectDevice => Config.romLen
  | .crc8 len => len
  | .reset => 0
  | .sendByte _ => 0
  | .recvByte => 0
  | .selectAll => 0
  | .writeBit _ => 0
  | .readBit => 0
  | .encodeBit _ => 0
  | .decodeBit _ => 0

/-- "Every buffer it names is admitted" (R225), the premise of claims about a command. -/
def buffersAdmitted (i : Instr) (s : State) : Bool := admitsSpan s.cfg s.base (bufferBytes i)

/-- How many `Xfer` calls a command makes when nothing ends it early (R206). -/
def xferBound : Instr → Nat
  | .reset => 1
  | .sendByte _ => 8
  | .sendBytes len => 8 * len
  | .recvByte => 8
  | .recvBytes len => 8 * len
  | .selectDevice => 72
  | .selectAll => 8
  | .writeBit _ => 1
  | .readBit => 1
  | .crc8 _ => 0
  | .encodeBit _ => 0
  | .decodeBit _ => 0

/-- The commands that write `RESULT` (R23). -/
def writesResult : Instr → Bool
  | .reset => true
  | .recvByte => true
  | .readBit => true
  | .crc8 _ => true
  | .encodeBit _ => true
  | .decodeBit _ => true
  | .sendByte _ => false
  | .sendBytes _ => false
  | .recvBytes _ => false
  | .writeBit _ => false
  | .selectDevice => false
  | .selectAll => false

/-! ## Calls -/

/-- Is the call an `Xfer`? -/
def isXfer : TransportCall → Bool
  | .xfer _ _ => true
  | .setSpeed _ => false
  | .reinit => false

/-- The transport's speed after these calls, from `r` (R31). -/
def speedAfter : Rate → List TransportCall → Rate
  | r, [] => r
  | _, .setSpeed r :: rest => speedAfter r rest
  | r, .xfer _ _ :: rest => speedAfter r rest
  | r, .reinit :: rest => speedAfter r rest

/-- The wired-AND premise on a call: no bit observed high was sent low (R233). -/
def wiredAndCall : TransportCall → Bool
  | .xfer tx (.ok rx) => decide (rx &&& ~~~tx = 0#8)
  | .xfer _ .timeout => true
  | .setSpeed _ => true
  | .reinit => true

/-! ## Encoding (spec R73, R75) -/

/-- The bits of a word that the command with this opcode uses: `OPC`, and the fields of R73's table. -/
def usedBits (opc : Byte) : Word :=
  if opc = 0x02#8 ∨ opc = 0x0C#8 then 0x0000FFFF#32
  else if opc = 0x03#8 ∨ opc = 0x05#8 ∨ opc = 0x0A#8 then 0xFFFF00FF#32
  else if opc = 0x08#8 ∨ opc = 0x0B#8 then 0x000001FF#32
  else 0x000000FF#32

/-! ## What is left alone -/

/-- What no command changes: `CMD`, `ADDR` (R22, R50, R251), the parameters, the host's own record; and the command is
over (R29), with `CMDERR` 0 (R71). -/
def Completed (s t : State) : Prop :=
  t.cmd = s.cmd ∧ t.addr = s.addr ∧ t.cfg = s.cfg ∧ t.host = s.host ∧ t.reads = s.reads ∧
    t.cmdErr = false ∧ t.seq.op = none

/-- Every buffer byte reads as before. -/
def SameBytes (s t : State) : Prop := ∀ a, Memory.read t.mem a = Memory.read s.mem a

/-- The transport was not called, and nothing was drawn. -/
def NoTraffic (s t : State) : Prop :=
  t.calls = s.calls ∧ t.answers = s.answers ∧ t.xferCount = s.xferCount ∧ t.drawCount = s.drawCount

/-- The slots `txs` were made from `s` under `TIMEOUT_POLICY`, each with its answer, and `SESSION` is TIMEOUT if one of
them timed out, else as before; `RATE` is as before (R32, R150, R151).
The record of the answers used is the model's own (log 3), and so is what `WIRED_AND` does to one (log 8). -/
def MadeSlots (txs : List Byte) (s t : State) : Prop :=
  t.calls = s.calls ++ slotCalls s.cfg.wiredAnd txs (usedAnswers s.cfg.timeoutPolicy (s.upcoming txs.length)) ∧
    t.answers = s.answers.drop (usedAnswers s.cfg.timeoutPolicy (s.upcoming txs.length)).length ∧
    t.xferCount = s.xferCount + (usedAnswers s.cfg.timeoutPolicy (s.upcoming txs.length)).length ∧
    t.session = (if sawTimeout (s.upcoming txs.length) then .timeout else s.session) ∧
    t.rate = s.rate

/-- A successful reset (R253). -/
def successfulReset (t : State) : Bool := decide (t.result = 1#32) && decide (t.session = .ok)

/-! ## The invariant -/

/-- What holds between commands:
memory is canonical and lists admitted bytes only (R52, R53), `RESULT[31:8]` are 0 (R23), the speed is `DATA_RATE` and
`RATE` says so (R31, R259), the sequencer is IDLE (R29), `SESSION` is not MISMATCH (R28). -/
def BetweenCommands (s : State) : Prop :=
  s.mem.wf = true ∧ (∀ c ∈ s.mem, admits s.cfg c.1 = true) ∧ s.result.toNat < 256 ∧ s.rate = .data ∧
    speedAfter .data s.calls = .data ∧ s.seq.op = none ∧ s.session ≠ .mismatch

end Sys2Proof.Machine
end

