-- ==== Sys2Proof/Certificates/Slice0/Obligations.lean ====
section
/-! DEFINITION. The statements for the provers, one definition each. -/

open Sys2Proof Sys2Proof.Machine

/-! ## Encoding -/

/-- R73, R79: words written out from the spec's encodings decode to their commands. -/
def Obligations.SpecWordsDecode : Prop :=
  decode 0x00000001#32 = .ok .reset ∧
  decode 0x00004402#32 = .ok (.sendByte 0x44#8) ∧
  decode 0x00020003#32 = .ok (.sendBytes 2) ∧
  decode 0x00000004#32 = .ok .recvByte ∧
  decode 0x00090005#32 = .ok (.recvBytes 9) ∧
  decode 0x00000006#32 = .ok .selectDevice ∧
  decode 0x00000007#32 = .ok .selectAll ∧
  decode 0x0000FE08#32 = .ok (.writeBit false) ∧
  decode 0x00000009#32 = .ok .readBit ∧
  decode 0x0007000A#32 = .ok (.crc8 7) ∧
  decode 0xFFFF010B#32 = .ok (.encodeBit true) ∧
  decode 0x0000FE0C#32 = .ok (.decodeBit 0xFE#8)

/-- R70, R73: decoding the word of a well-formed command gives the command back, with every operand. -/
def Obligations.DecodeOfEncodeIsTheCommand : Prop :=
  ∀ i : Instr, i.wf = true → decode (encode i) = .ok i

/-- R70, R74, R79: a decoded command is well formed, and its word is the bits of the original it uses, the rest 0. -/
def Obligations.EncodeOfDecodeKeepsTheUsedBits : Prop :=
  ∀ (w : Word) (i : Instr), decode w = .ok i → i.wf = true ∧ encode i = w &&& usedBits (opcField w)

/-- R75: two words that agree on the bits their opcode uses are the same command. -/
def Obligations.UnusedBitsAreIgnored : Prop :=
  ∀ w w' : Word, w &&& usedBits (opcField w) = w' &&& usedBits (opcField w) → decode w = decode w'

/-- R71, R73, R74: a legal opcode always selects its command, whatever the other fields hold, with the operands R74
assembles. -/
def Obligations.OpcodeSelectsTheCommand : Prop :=
  ∀ w : Word,
    (w.extractLsb' 0 8 = 0x01#8 → decode w = .ok .reset) ∧
    (w.extractLsb' 0 8 = 0x02#8 → decode w = .ok (.sendByte (w.extractLsb' 8 8))) ∧
    (w.extractLsb' 0 8 = 0x03#8 → decode w = .ok (.sendBytes (w.extractLsb' 16 16).toNat)) ∧
    (w.extractLsb' 0 8 = 0x04#8 → decode w = .ok .recvByte) ∧
    (w.extractLsb' 0 8 = 0x05#8 → decode w = .ok (.recvBytes (w.extractLsb' 16 16).toNat)) ∧
    (w.extractLsb' 0 8 = 0x06#8 → decode w = .ok .selectDevice) ∧
    (w.extractLsb' 0 8 = 0x07#8 → decode w = .ok .selectAll) ∧
    (w.extractLsb' 0 8 = 0x08#8 → decode w = .ok (.writeBit (w.getLsbD 8))) ∧
    (w.extractLsb' 0 8 = 0x09#8 → decode w = .ok .readBit) ∧
    (w.extractLsb' 0 8 = 0x0A#8 → decode w = .ok (.crc8 (w.extractLsb' 16 16).toNat)) ∧
    (w.extractLsb' 0 8 = 0x0B#8 → decode w = .ok (.encodeBit (w.getLsbD 8))) ∧
    (w.extractLsb' 0 8 = 0x0C#8 → decode w = .ok (.decodeBit (w.extractLsb' 8 8)))

/-! ## The host port -/

/-- R21, R71: a step that meets a 32-bit write of a legal word to `CMD` stores the word and performs the command. -/
def Obligations.StepPerformsTheDecodedCommand : Prop :=
  ∀ (s : State) (w : Word) (rest : List HostAction) (i : Instr),
    s.host = .write 32 0x00 w :: rest → decode w = .ok i →
      step s = exec i { s with cmd := w, host := rest }

/-- R72, R223: a word is illegal exactly when its opcode is 0x00 or 0x0D to 0xFF, 244 values; a step that meets a 32-bit
write of one to `CMD` stores it, sets `CMDERR`, and does nothing else. -/
def Obligations.IllegalWordsOnlySetCmdErr : Prop :=
  (∀ w : Word, decode w = .error (.illegalOpcode (w.extractLsb' 0 8)) ↔
      w.extractLsb' 0 8 = 0#8 ∨ 0x0D ≤ (w.extractLsb' 0 8).toNat) ∧
    ((List.range 256).filter (fun n => decide (decodeTableWord 8 n = none))).length = 244 ∧
    ∀ (s : State) (w : Word) (rest : List HostAction),
      s.host = .write 32 0x00 w :: rest → (w.extractLsb' 0 8 = 0#8 ∨ 0x0D ≤ (w.extractLsb' 0 8).toNat) →
        step s = .next { s with cmd := w, cmdErr := true, host := rest }

/-- R21 to R24: a host read returns the register and changes nothing; `RESULT[31:8]` read 0; `STATUS` reads its fields. -/
def Obligations.HostReadsReturnTheRegisters : Prop :=
  ∀ (s : State) (rest : List HostAction),
    (s.host = .read 32 0x00 :: rest → step s = .next { s with host := rest, reads := s.reads ++ [s.cmd] }) ∧
    (s.host = .read 32 0x04 :: rest → step s = .next { s with host := rest, reads := s.reads ++ [s.addr] }) ∧
    (s.host = .read 32 0x08 :: rest →
      step s = .next { s with host := rest, reads := s.reads ++ [(s.result.extractLsb' 0 8).setWidth 32] }) ∧
    (s.host = .read 32 0x0C :: rest → step s = .next { s with host := rest, reads := s.reads ++ [s.statusWord] })

/-- R22, R23, R24: a host write to `ADDR` stores all 32 bits; one to `RESULT` or `STATUS` is ignored. -/
def Obligations.HostWritesReachAddrOnly : Prop :=
  ∀ (s : State) (w : Word) (rest : List HostAction),
    (s.host = .write 32 0x04 w :: rest → step s = .next { s with addr := w, host := rest }) ∧
    (s.host = .write 32 0x08 w :: rest → step s = .next { s with host := rest }) ∧
    (s.host = .write 32 0x0C w :: rest → step s = .next { s with host := rest })

/-- R54: an access of another width or at another offset is not admitted: the host is stuck at it and no register
changes. -/
def Obligations.OtherRegisterAccessesAreStuck : Prop :=
  ∀ (s : State) (width offset : Nat) (w : Word) (rest : List HostAction),
    ¬(width = 32 ∧ (offset = 0x00 ∨ offset = 0x04 ∨ offset = 0x08 ∨ offset = 0x0C)) →
      (s.host = .write width offset w :: rest → step s = .fault (.hostStuck (.write width offset w) s)) ∧
      (s.host = .read width offset :: rest → step s = .fault (.hostStuck (.read width offset) s))

/-- R24: the bits of `STATUS`. -/
def Obligations.StatusWordLayout : Prop :=
  ∀ s : State,
    s.statusWord.extractLsb' 0 2 =
      (match s.session with | .ok => 0#2 | .timeout => 1#2 | .mismatch => 2#2) ∧
    s.statusWord.getLsbD 2 = s.cmdErr ∧
    s.statusWord.getLsbD 3 = decide (s.rate = .reset) ∧
    s.statusWord.extractLsb' 4 28 = 0#28

/-- R52; the host's own buffer accesses are the model's choice (log 9). -/
def Obligations.HostBufferAccesses : Prop :=
  ∀ (s : State) (a : Nat) (v : Byte) (rest : List HostAction),
    (s.host = .poke a v :: rest → admits s.cfg a = true →
      step s = .next { s with mem := s.mem.write a v, host := rest }) ∧
    (s.host = .peek a :: rest → admits s.cfg a = true →
      step s = .next { s with host := rest, reads := s.reads ++ [(s.mem.read a).setWidth 32] }) ∧
    (s.host = .poke a v :: rest → admits s.cfg a = false → step s = .fault (.hostStuck (.poke a v) s)) ∧
    (s.host = .peek a :: rest → admits s.cfg a = false → step s = .fault (.hostStuck (.peek a) s))

/-- R238, R250: with no action of the host, the block holds its state; a step of a waiting block is the model's way to
say so (log 10). -/
def Obligations.WaitingBlockHoldsItsState : Prop :=
  ∀ s : State, s.host = [] → step s = .next s

/-- R250: what block reset leaves, and that it makes no transport call and no memory access; that a block reset is an
action the outside takes between commands, and what it leaves of the platform's state, is the model's (logs 10 and 12). -/
def Obligations.BlockResetValues : Prop :=
  ∀ (s : State) (rest : List HostAction), s.host = .blockReset :: rest →
    ∃ t, step s = .next t ∧ t.cmd = 0#32 ∧ t.addr = 0#32 ∧ t.result = 0#32 ∧ t.session = .ok ∧ t.cmdErr = false ∧
      t.rate = .data ∧ t.statusWord = 0#32 ∧ t.seq.op = none ∧ t.mem = s.mem ∧ t.calls = s.calls ∧
      t.answers = s.answers ∧ t.xferCount = s.xferCount ∧ t.drawCount = s.drawCount ∧ t.cfg = s.cfg ∧
      t.reads = s.reads ∧ t.host = rest

/-- R250: the registers and the sequencer of `State.reset`. -/
def Obligations.ResetStateValues : Prop :=
  State.reset.cmd = 0#32 ∧ State.reset.addr = 0#32 ∧ State.reset.result = 0#32 ∧ State.reset.session = .ok ∧
    State.reset.cmdErr = false ∧ State.reset.rate = .data ∧ State.reset.statusWord = 0#32 ∧
    State.reset.seq.op = none

/-! ## Buffer memory -/

/-- R52: a byte reads as the last write to it left it, and a write changes no other byte. -/
def Obligations.MemoryReadAfterWrite : Prop :=
  ∀ (m : Memory) (a b : Nat) (v : Byte), m.wf = true →
    (m.write a v).read b = (if b = a then v else m.read b)

/-- R53: no address at or above 2^32 is admitted; below, the one that `MemAdmit` holds of. -/
def Obligations.AdmissionOfBufferRequests : Prop :=
  ∀ (p : Params) (a : Nat),
    admits p a = true ↔ a < 2 ^ 32 ∧ ∃ g ∈ p.memAdmit, g.base ≤ a ∧ a < g.base + g.size

/-! ## The bit codec -/

/-- R100, R101, R102: the two mappings and their round trip. -/
def Obligations.BitCodecRoundTrip : Prop :=
  encBit true = 0xFF#8 ∧ encBit false = 0x00#8 ∧ (∀ x : Byte, decBit x = true ↔ x = 0xFF#8) ∧
    (∀ b : Bool, decBit (encBit b) = b) ∧ (∀ x : Byte, encBit (decBit x) = x ↔ x = 0x00#8 ∨ x = 0xFF#8)

/-- R104: the slot list of a byte: slot `i` carries its bit `i`. -/
def Obligations.EncodeByteIsTheSlotList : Prop :=
  ∀ b : Byte,
    (∀ i, i < 8 → (encodeByte b)[i]? = some (if b.getLsbD i then 0xFF#8 else 0x00#8)) ∧ (encodeByte b).length = 8

/-- R105: bit `i` of the byte assembled from eight observed bytes is 1 exactly when byte `i` is 0xFF; and the eight slots
of a byte assemble to it. -/
def Obligations.DecodeBitsAssemblesTheByte : Prop :=
  (∀ (x : List Byte) (i : Nat), x.length = 8 → i < 8 →
    ((decodeBits x).getLsbD i = true ↔ x[i]? = some 0xFF#8)) ∧
  ∀ b : Byte, decodeBits (encodeByte b) = b

/-- R110: ENCODE_BIT. -/
def Obligations.EncodeBitReturnsTheSlotByte : Prop :=
  (∀ w : Word, w.extractLsb' 0 8 = 0x0B#8 → decode w = .ok (.encodeBit (w.getLsbD 8))) ∧
    ∀ (b : Bool) (s : State), ∃ t, exec (.encodeBit b) s = .next t ∧
      t.result = (if b then 0x000000FF#32 else 0x00000000#32) ∧
      t.session = s.session ∧ t.rate = s.rate ∧ Completed s t ∧ SameBytes s t ∧ NoTraffic s t

/-- R115: DECODE_BIT. -/
def Obligations.DecodeBitReturnsTheBit : Prop :=
  (∀ w : Word, w.extractLsb' 0 8 = 0x0C#8 → decode w = .ok (.decodeBit (w.extractLsb' 8 8))) ∧
    ∀ (x : Byte) (s : State), ∃ t, exec (.decodeBit x) s = .next t ∧
      t.result = (if x = 0xFF#8 then 1#32 else 0#32) ∧
      t.session = s.session ∧ t.rate = s.rate ∧ Completed s t ∧ SameBytes s t ∧ NoTraffic s t

/-! ## CRC-8 -/

/-- R132, 95_test_vectors.md: checksums of the spec. -/
def Obligations.CrcVectors : Prop :=
  crc8 [0x01#8] = 0x5E#8 ∧ crc8 [0x80#8] = 0x8C#8 ∧
    crc8 [0x02#8, 0x1C#8, 0xB8#8, 0x01#8, 0x00#8, 0x00#8, 0x00#8] = 0xA2#8 ∧
    crc8 [0x28#8, 0xFF#8, 0x4C#8, 0x06#8, 0x15#8, 0x15#8, 0x02#8] = 0x59#8 ∧
    crc8 [0x31#8, 0x32#8, 0x33#8, 0x34#8, 0x35#8, 0x36#8, 0x37#8, 0x38#8, 0x39#8] = 0xA1#8

/-- R133: the step is linear. -/
def Obligations.CrcStepIsLinear : Prop :=
  ∀ c1 c2 d1 d2 : Byte, crc8Step (c1 ^^^ c2) (d1 ^^^ d2) = crc8Step c1 d1 ^^^ crc8Step c2 d2

/-- R133: appending its checksum to a list brings the register back to zero. -/
def Obligations.CrcOfListWithItsChecksumIsZero : Prop :=
  ∀ d : List Byte, crc8 (d ++ [crc8 d]) = 0x00#8

/-- R133, R134: the empty list and every all-zero list have checksum 0. -/
def Obligations.CrcOfZerosIsZero : Prop :=
  crc8 [] = 0x00#8 ∧ ∀ n : Nat, crc8 (List.replicate n 0x00#8) = 0x00#8

/-- R133: the address check. A list and one more byte have checksum 0 exactly when that byte is the list's checksum. -/
def Obligations.CrcAddressCheck : Prop :=
  ∀ (d : List Byte) (x : Byte), crc8 (d ++ [x]) = 0x00#8 ↔ crc8 d = x

/-- R135: CRC8 over admitted bytes, any count. -/
def Obligations.CrcCommandReturnsTheChecksum : Prop :=
  (∀ w : Word, w.extractLsb' 0 8 = 0x0A#8 → decode w = .ok (.crc8 (w.extractLsb' 16 16).toNat)) ∧
    ∀ (n : Nat) (s : State), buffersAdmitted (.crc8 n) s = true →
      ∃ t, exec (.crc8 n) s = .next t ∧
        t.result = (crc8 ((List.range n).map (fun j => s.mem.read (s.addr.toNat + j)))).setWidth 32 ∧
        t.session = s.session ∧ t.rate = s.rate ∧ Completed s t ∧ SameBytes s t ∧ NoTraffic s t

/-- R53, R135: at the first byte that is not admitted CRC8 is stuck, with `RESULT` not yet written. -/
def Obligations.CrcCommandStuckAtUnadmittedByte : Prop :=
  ∀ (n k : Nat) (s : State), k < n → (∀ j < k, admits s.cfg (s.addr.toNat + j) = true) →
    admits s.cfg (s.addr.toNat + k) = false →
      ∃ held, exec (.crc8 n) s = .fault (.bufferStuck (s.addr.toNat + k) held) ∧
        held.result = s.result ∧ held.session = s.session ∧ held.cmdErr = false ∧ held.seq.op = some 0x0A#8 ∧
        SameBytes s held ∧ NoTraffic s held

/-! ## Bus session -/

/-- R150: one slot: one `Xfer`; a timeout writes TIMEOUT and yields no byte, a byte is yielded as it was observed. -/
def Obligations.SlotMakesOneXfer : Prop :=
  ∀ (p : Params) (tx : Byte) (s : State),
    ∃ a, State.upcoming s 1 = [a] ∧
      (slot p tx s).2.calls = s.calls ++ [.xfer tx (observed p.wiredAnd tx a)] ∧
      (slot p tx s).2.session = (if a = .timeout then .timeout else s.session) ∧
      (slot p tx s).1 = (match observed p.wiredAnd tx a with | .ok rx => some rx | .timeout => none)

/-- R160: RESET, for every answer and every status before it. -/
def Obligations.ResetCommandReportsPresence : Prop :=
  (∀ w : Word, w.extractLsb' 0 8 = 0x01#8 → decode w = .ok .reset) ∧
    ∀ s : State, ∃ t a, exec .reset s = .next t ∧
      (∃ raw, State.upcoming s 1 = [raw] ∧ a = observed s.cfg.wiredAnd s.cfg.resetPattern raw) ∧
      t.calls = s.calls ++ (if s.session = .ok then [] else [.reinit]) ++
        [.setSpeed .reset, .xfer s.cfg.resetPattern a, .setSpeed .data] ∧
      t.result = (match a with
        | .ok rx => if rx = s.cfg.resetPattern then 0#32 else 1#32
        | .timeout => 0#32) ∧
      t.session = (if a = .timeout then .timeout else .ok) ∧
      t.rate = .data ∧ Completed s t ∧ SameBytes s t ∧
      t.answers = s.answers.tail ∧ t.xferCount = s.xferCount + 1 ∧ t.drawCount = s.drawCount

/-- R224, R253: a RESET is successful exactly when its slot observed a byte other than the pattern; otherwise `RESULT` is
0, and `SESSION` tells a timeout from no presence. -/
def Obligations.SuccessfulResetMeansPresence : Prop :=
  ∀ (s t : State), exec .reset s = .next t →
    (successfulReset t = true ↔
      ∃ rx, TransportCall.xfer s.cfg.resetPattern (.ok rx) ∈ t.calls.drop s.calls.length ∧
        rx ≠ s.cfg.resetPattern) ∧
    (successfulReset t = false → t.result = 0#32)

/-- R165: SEND_BYTE, for every answer and both policies. -/
def Obligations.SendByteSendsEightSlots : Prop :=
  (∀ w : Word, w.extractLsb' 0 8 = 0x02#8 → decode w = .ok (.sendByte (w.extractLsb' 8 8))) ∧
    ∀ (b : Byte) (s : State), ∃ t, exec (.sendByte b) s = .next t ∧
      MadeSlots (encodeByte b) s t ∧ t.result = s.result ∧ Completed s t ∧ SameBytes s t ∧
      t.drawCount = s.drawCount

/-- R170: SEND_BYTES over admitted bytes, any count, for every answer and both policies. -/
def Obligations.SendBytesSendsTheBuffer : Prop :=
  (∀ w : Word, w.extractLsb' 0 8 = 0x03#8 → decode w = .ok (.sendBytes (w.extractLsb' 16 16).toNat)) ∧
    ∀ (n : Nat) (s : State), buffersAdmitted (.sendBytes n) s = true →
      ∃ t, exec (.sendBytes n) s = .next t ∧
        MadeSlots (byteSlots ((List.range n).map (fun j => s.mem.read (s.addr.toNat + j)))) s t ∧
        t.result = s.result ∧ Completed s t ∧ SameBytes s t ∧ t.drawCount = s.drawCount

/-- R53, R170, R226: at the first byte `k` that is not admitted SEND_BYTES is stuck after the `8 * k` slots before it,
unless ABORT ended it in one of them. -/
def Obligations.SendBytesAtUnadmittedByte : Prop :=
  ∀ (n k : Nat) (s : State), k < n → (∀ j < k, admits s.cfg (s.addr.toNat + j) = true) →
    admits s.cfg (s.addr.toNat + k) = false →
      ∃ t, exec (.sendBytes n) s =
          (if abortsOn s.cfg.timeoutPolicy (s.upcoming (8 * k)) then .next t
            else .fault (.bufferStuck (s.addr.toNat + k) t)) ∧
        MadeSlots (byteSlots ((List.range k).map (fun j => s.mem.read (s.addr.toNat + j)))) s t ∧
        t.result = s.result ∧ t.cmdErr = false ∧ SameBytes s t ∧ t.drawCount = s.drawCount

/-- R175: RECV_BYTE, for every answer and both policies: the byte of the eight bits, or a drawn byte if ABORT ended it. -/
def Obligations.RecvByteReturnsTheByte : Prop :=
  (∀ w : Word, w.extractLsb' 0 8 = 0x04#8 → decode w = .ok .recvByte) ∧
    ∀ s : State, ∃ t, exec .recvByte s = .next t ∧
      MadeSlots (readSlots 8) s t ∧
      t.result = (if abortsOn s.cfg.timeoutPolicy (s.upcoming 8) then (Config.drawByte s.drawCount).setWidth 32
        else (byteOfBits (readBits (s.upcoming 8) s.drawCount)).setWidth 32) ∧
      Completed s t ∧ SameBytes s t

/-- R105, R175: with no timeout the byte is `decode_bits` of the eight observed bytes. -/
def Obligations.RecvByteDecodesTheObservedBytes : Prop :=
  ∀ (s : State) (x : List Byte), s.upcoming 8 = x.map Answer.ok →
    ∃ t, exec .recvByte s = .next t ∧ t.result = (decodeBits x).setWidth 32 ∧ t.session = s.session

/-- R180: RECV_BYTES over admitted bytes, any count, for every answer and both policies: the slots made, the bytes
stored, every other byte as before. -/
def Obligations.RecvBytesStoresTheBytes : Prop :=
  (∀ w : Word, w.extractLsb' 0 8 = 0x05#8 → decode w = .ok (.recvBytes (w.extractLsb' 16 16).toNat)) ∧
    ∀ (n : Nat) (s : State), buffersAdmitted (.recvBytes n) s = true →
      ∃ t bs, exec (.recvBytes n) s = .next t ∧
        bs = bytesReceived s.cfg.timeoutPolicy n (s.upcoming (8 * n)) s.drawCount ∧
        MadeSlots (readSlots (8 * n)) s t ∧
        (s.mem.wf = true → ∀ j (h : j < bs.length), t.mem.read (s.addr.toNat + j) = bs[j]) ∧
        (∀ a, (∀ j < bs.length, a ≠ s.addr.toNat + j) → t.mem.read a = s.mem.read a) ∧
        t.result = s.result ∧ Completed s t

/-- R151, R180 ("On abort"): a RECV_BYTES that completes has stored all its bytes; but if ABORT ended it, only those before
the byte whose slot timed out, which is that of the last `Xfer` it made. -/
def Obligations.RecvBytesCountsWholeBytes : Prop :=
  ∀ (n : Nat) (s t : State), exec (.recvBytes n) s = .next t →
    ∃ made bs, t.calls = s.calls ++ made ∧
      bs = bytesReceived s.cfg.timeoutPolicy n (s.upcoming (8 * n)) s.drawCount ∧
      bs.length =
        (if s.cfg.timeoutPolicy = .abort ∧ ∃ tx, TransportCall.xfer tx .timeout ∈ made then (made.length - 1) / 8 else n) ∧
      (s.mem.wf = true → ∀ j (h : j < bs.length), t.mem.read (s.addr.toNat + j) = bs[j]) ∧
      (∀ a, (∀ j < bs.length, a ≠ s.addr.toNat + j) → t.mem.read a = s.mem.read a)

/-- R53, R180, R226: at the first byte `k` that is not admitted RECV_BYTES is stuck after that byte's slots, with the
bytes before it stored, unless ABORT ended it in one of the slots. -/
def Obligations.RecvBytesAtUnadmittedByte : Prop :=
  ∀ (n k : Nat) (s : State), k < n → (∀ j < k, admits s.cfg (s.addr.toNat + j) = true) →
    admits s.cfg (s.addr.toNat + k) = false →
      ∃ t bs, exec (.recvBytes n) s =
          (if abortsOn s.cfg.timeoutPolicy (s.upcoming (8 * (k + 1))) then .next t
            else .fault (.bufferStuck (s.addr.toNat + k) t)) ∧
        bs = bytesReceived s.cfg.timeoutPolicy k (s.upcoming (8 * k)) s.drawCount ∧
        MadeSlots (readSlots (8 * (k + 1))) s t ∧
        (s.mem.wf = true → ∀ j (h : j < bs.length), t.mem.read (s.addr.toNat + j) = bs[j]) ∧
        (∀ a, (∀ j < bs.length, a ≠ s.addr.toNat + j) → t.mem.read a = s.mem.read a) ∧
        t.result = s.result ∧ t.cmdErr = false

/-- R185: WRITE_BIT: one slot, whatever its answer. -/
def Obligations.WriteBitSendsOneSlot : Prop :=
  (∀ w : Word, w.extractLsb' 0 8 = 0x08#8 → decode w = .ok (.writeBit (w.getLsbD 8))) ∧
    ∀ (b : Bool) (s : State), ∃ t, exec (.writeBit b) s = .next t ∧
      MadeSlots [if b then 0xFF#8 else 0x00#8] s t ∧ t.result = s.result ∧ Completed s t ∧ SameBytes s t ∧
      t.drawCount = s.drawCount

/-- R190: READ_BIT: one read slot; the bit it decodes, or a drawn bit if it timed out, under both policies. -/
def Obligations.ReadBitReturnsTheBit : Prop :=
  (∀ w : Word, w.extractLsb' 0 8 = 0x09#8 → decode w = .ok .readBit) ∧
    ∀ s : State, ∃ t a, exec .readBit s = .next t ∧ s.upcoming 1 = [a] ∧
      MadeSlots [0xFF#8] s t ∧
      t.result = (match a with
        | .ok rx => if rx = 0xFF#8 then 1#32 else 0#32
        | .timeout => if Config.drawBit s.drawCount then 1#32 else 0#32) ∧
      Completed s t ∧ SameBytes s t

/-- R195: SELECT_DEVICE with an admitted address buffer: Match-ROM and the eight address bytes. -/
def Obligations.SelectDeviceSendsTheAddress : Prop :=
  (∀ w : Word, w.extractLsb' 0 8 = 0x06#8 → decode w = .ok .selectDevice) ∧
    ∀ s : State, buffersAdmitted .selectDevice s = true →
      ∃ t, exec .selectDevice s = .next t ∧
        MadeSlots (encodeByte s.cfg.matchRomCmd ++
          byteSlots ((List.range 8).map (fun j => s.mem.read (s.addr.toNat + j)))) s t ∧
        t.result = s.result ∧ Completed s t ∧ SameBytes s t ∧ t.drawCount = s.drawCount

/-- R53, R195, R226: at the first address byte that is not admitted SELECT_DEVICE is stuck, unless ABORT ended it before. -/
def Obligations.SelectDeviceAtUnadmittedByte : Prop :=
  ∀ (k : Nat) (s : State), k < 8 → (∀ j < k, admits s.cfg (s.addr.toNat + j) = true) →
    admits s.cfg (s.addr.toNat + k) = false →
      ∃ t, exec .selectDevice s =
          (if abortsOn s.cfg.timeoutPolicy (s.upcoming (8 + 8 * k)) then .next t
            else .fault (.bufferStuck (s.addr.toNat + k) t)) ∧
        MadeSlots (encodeByte s.cfg.matchRomCmd ++
          byteSlots ((List.range k).map (fun j => s.mem.read (s.addr.toNat + j)))) s t ∧
        t.result = s.result ∧ t.cmdErr = false ∧ SameBytes s t ∧ t.drawCount = s.drawCount

/-- R200: SELECT_ALL: Skip-ROM, eight slots. -/
def Obligations.SelectAllSendsSkipRom : Prop :=
  (∀ w : Word, w.extractLsb' 0 8 = 0x07#8 → decode w = .ok .selectAll) ∧
    ∀ s : State, ∃ t, exec .selectAll s = .next t ∧
      MadeSlots (encodeByte s.cfg.skipRomCmd) s t ∧ t.result = s.result ∧ Completed s t ∧ SameBytes s t ∧
      t.drawCount = s.drawCount

/-! ## Rules of the whole machine -/

/-- R53, R220, R225: a command whose buffers are admitted completes, whatever the transport answers. -/
def Obligations.AdmittedCommandsComplete : Prop :=
  ∀ (i : Instr) (s : State), buffersAdmitted i s = true → ∃ t, exec i s = .next t

/-- R53, R225: a command stops only at a byte of its buffer that is not admitted, and none is refused. -/
def Obligations.CommandsStopOnlyAtUnadmittedBytes : Prop :=
  ∀ (i : Instr) (s : State),
    (∀ f, exec i s = .fault f → ∃ k held, f = .bufferStuck (s.addr.toNat + k) held ∧ k < bufferBytes i ∧
      admits s.cfg (s.addr.toNat + k) = false ∧ ∀ j < k, admits s.cfg (s.addr.toNat + j) = true) ∧
    (∀ r, exec i s ≠ .refused r)

/-- R22, R29, R30, R50, R251: a command that completes leaves `CMD` and `ADDR` as they were, clears `CMDERR` and leaves the
sequencer IDLE. -/
def Obligations.EveryCommandKeepsCmdAndAddr : Prop :=
  ∀ (i : Instr) (s t : State), exec i s = .next t → Completed s t

/-- R23: only the commands of R23's table write `RESULT`, and what they write has bits 31:8 zero. -/
def Obligations.OnlyValueCommandsWriteResult : Prop :=
  ∀ (i : Instr) (s t : State), exec i s = .next t →
    (writesResult i = false → t.result = s.result) ∧ (writesResult i = true → t.result.toNat < 256)

/-- R50: no command but RECV_BYTES changes buffer memory, and RECV_BYTES no byte outside its buffer. -/
def Obligations.OnlyRecvBytesWritesMemory : Prop :=
  ∀ (i : Instr) (s t : State), exec i s = .next t →
    (∀ n, i = .recvBytes n → ∀ a, (∀ j < n, a ≠ s.addr.toNat + j) → t.mem.read a = s.mem.read a) ∧
    ((∀ n, i ≠ .recvBytes n) → SameBytes s t)

/-- R31, R160, R206, R207: no command but RESET calls `SetSpeed` or `Reinit` or writes `RATE`; each makes at most the
`Xfer` calls of R206's table, exactly so many under CONTINUE. -/
def Obligations.DataCommandsMakeBoundedXfers : Prop :=
  ∀ (i : Instr) (s t : State), exec i s = .next t → i ≠ .reset →
    ∃ made, t.calls = s.calls ++ made ∧ (∀ c ∈ made, isXfer c = true) ∧ made.length ≤ xferBound i ∧
      (s.cfg.timeoutPolicy = .contin → made.length = xferBound i) ∧ t.rate = s.rate

/-- R26, R28: a command other than RESET writes TIMEOUT if one of its slots timed out, and otherwise leaves `SESSION`; so a
TIMEOUT stays until the next RESET, and MISMATCH is never written. -/
def Obligations.SessionIsStickyUntilReset : Prop :=
  ∀ (i : Instr) (s t : State), exec i s = .next t →
    (i ≠ .reset → t.session =
      (if ∃ tx, TransportCall.xfer tx .timeout ∈ t.calls.drop s.calls.length then .timeout else s.session)) ∧
    (i = .reset → t.session ≠ .mismatch)

/-- R233: if `WIRED_AND` is true every answer of every call a command makes satisfies `rx & ~tx = 0`. That `WIRED_AND` masks
what the transport answers is the model's reading (log 8). -/
def Obligations.WiredAndHoldsOfEveryCall : Prop :=
  ∀ (i : Instr) (s t : State), exec i s = .next t → s.cfg.wiredAnd = true →
    (∀ c ∈ s.calls, wiredAndCall c = true) → ∀ c ∈ t.calls, wiredAndCall c = true

/-- R29: no command reads what an earlier one left in the sequencer's fields. The two runs compared are given the same
answers and the same draws, because these are functions of counts that State holds: the model's choice (logs 3 and 4). -/
def Obligations.SequencerLeftoversAreNotRead : Prop :=
  ∀ (i : Instr) (s t : State) (q : Seq), exec i s = .next t →
    ∃ t', exec i { s with seq := q } = .next t' ∧ { t' with seq := t.seq } = t

/-- The invariant holds at reset: the registers are R250's; that memory is empty and every address admitted is the model's
choice (logs 5 and 6). -/
def Obligations.ResetMeetsTheInvariant : Prop :=
  BetweenCommands State.reset

/-- R23, R28, R29, R31, R52, R53, R259: every step keeps the invariant, from every state that has it. -/
def Obligations.StepKeepsTheInvariant : Prop :=
  ∀ s s' : State, BetweenCommands s → step s = .next s' → BetweenCommands s'

/-! ## Assembler -/

/-- R79, R80: assembled words, a line of text, and the expansions of the pseudo-instructions. -/
def Obligations.AssemblerWordsAndExpansions : Prop :=
  assemble (.command (.sendByte 0x44#8)) = .write 32 0x00 0x00004402#32 ∧
    assemble (.command (.recvBytes 9)) = .write 32 0x00 0x00090005#32 ∧
    assemble (.command .reset) = .write 32 0x00 0x00000001#32 ∧
    assemble (.setAddr 0x100#32) = .write 32 0x04 0x00000100#32 ∧
    (∀ (a : Word) (n : Nat),
      expand (.sendBytesAt a n) = [.setAddr a, .command (.sendBytes n)] ∧
      expand (.recvBytesAt a n) = [.setAddr a, .command (.recvBytes n)] ∧
      expand (.crc8At a n) = [.setAddr a, .command (.crc8 n)] ∧
      expand (.selectDeviceAt a) = [.setAddr a, .command .selectDevice] ∧
      expand (.matchRom a) = expand (.selectDeviceAt a)) ∧
    expand .skipRom = [.command .selectAll] ∧ expand .touchBit1 = [.command .readBit]
end

