-- ==== Sys2Proof/Laws/Answers.lean ====
section
/-! SUPPORT. Laws of the answer lists claims are stated in: what a longer list of slots uses, by its parts. -/

namespace Sys2Proof.Machine

@[simp] theorem upcomingFrom_zero (l : List Answer) (c : Nat) : upcomingFrom l c 0 = [] := by
  cases l <;> rfl

@[simp] theorem length_upcomingFrom (l : List Answer) (c n : Nat) : (upcomingFrom l c n).length = n := by
  induction n generalizing l c with
  | zero => simp
  | succ n ih => cases l <;> simp [upcomingFrom, ih]

theorem upcomingFrom_add (l : List Answer) (c m n : Nat) :
    upcomingFrom l c (m + n) = upcomingFrom l c m ++ upcomingFrom (l.drop m) (c + m) n := by
  induction m generalizing l c with
  | zero => simp
  | succ m ih =>
    have e : m + 1 + n = (m + n) + 1 := by omega
    have e' : c + (m + 1) = c + 1 + m := by omega
    cases l with
    | nil => simp [e, e', upcomingFrom, ih]
    | cons a rest => simp [e, e', upcomingFrom, ih]

@[simp] theorem State.length_upcoming (s : State) (n : Nat) : (s.upcoming n).length = n :=
  length_upcomingFrom _ _ _

@[simp] theorem State.upcoming_zero (s : State) : s.upcoming 0 = [] := upcomingFrom_zero _ _

theorem State.upcoming_one (s : State) : s.upcoming 1 = [s.nextAnswer] := by
  unfold State.upcoming State.nextAnswer
  cases s.answers <;> simp [upcomingFrom]

@[simp] theorem sawTimeout_nil : sawTimeout [] = false := rfl

theorem sawTimeout_append (a b : List Answer) : sawTimeout (a ++ b) = (sawTimeout a || sawTimeout b) := by
  simp [sawTimeout]

theorem throughTimeout_of_not {a : List Answer} (h : sawTimeout a = false) : throughTimeout a = a := by
  induction a with
  | nil => rfl
  | cons x rest ih =>
    cases x with
    | ok rx =>
      have h' : sawTimeout rest = false := by simpa [sawTimeout] using h
      simp [throughTimeout, ih h']
    | timeout => simp [sawTimeout] at h

theorem throughTimeout_append (a b : List Answer) :
    throughTimeout (a ++ b) = if sawTimeout a then throughTimeout a else a ++ throughTimeout b := by
  induction a with
  | nil => simp
  | cons x rest ih =>
    cases x with
    | ok rx =>
      have e : sawTimeout (Answer.ok rx :: rest) = sawTimeout rest := by simp [sawTimeout]
      rw [e, List.cons_append, throughTimeout, ih]
      split <;> simp [throughTimeout]
    | timeout => simp [throughTimeout, sawTimeout]

theorem length_throughTimeout_le (a : List Answer) : (throughTimeout a).length ≤ a.length := by
  induction a with
  | nil => simp [throughTimeout]
  | cons x rest ih => cases x <;> simp [throughTimeout]; omega

theorem length_usedAnswers_le (pol : TimeoutPolicy) (a : List Answer) : (usedAnswers pol a).length ≤ a.length := by
  cases pol with
  | contin => exact le_rfl
  | abort => exact length_throughTimeout_le a

theorem usedAnswers_of_not_abort {pol : TimeoutPolicy} {a : List Answer} (h : abortsOn pol a = false) :
    usedAnswers pol a = a := by
  cases pol with
  | contin => rfl
  | abort => exact throughTimeout_of_not (by simpa [abortsOn] using h)

/-- What the slots of `a` and then `b` use: if ABORT ends the command in `a`, nothing of `b`. -/
theorem usedAnswers_append (pol : TimeoutPolicy) (a b : List Answer) :
    usedAnswers pol (a ++ b) = if abortsOn pol a then usedAnswers pol a else a ++ usedAnswers pol b := by
  cases pol with
  | contin => simp [usedAnswers, abortsOn]
  | abort => simpa [usedAnswers, abortsOn] using throughTimeout_append a b

theorem abortsOn_append (pol : TimeoutPolicy) (a b : List Answer) :
    abortsOn pol (a ++ b) = (abortsOn pol a || abortsOn pol b) := by
  cases pol <;> simp [abortsOn, sawTimeout_append]

theorem sawTimeout_of_abortsOn {pol : TimeoutPolicy} {a : List Answer} (h : abortsOn pol a = true) :
    sawTimeout a = true := by
  simp [abortsOn] at h
  exact h.2

theorem throughTimeout_ne_nil {a : List Answer} (h : sawTimeout a = true) : 1 ≤ (throughTimeout a).length := by
  cases a with
  | nil => simp at h
  | cons x rest => cases x <;> simp [throughTimeout]

/-- A timeout among the answers is among those used: ABORT uses all up to it and it. -/
theorem timeout_mem_usedAnswers (pol : TimeoutPolicy) (a : List Answer) :
    Answer.timeout ∈ usedAnswers pol a ↔ sawTimeout a = true := by
  cases pol with
  | contin => simp [usedAnswers, sawTimeout]
  | abort =>
    unfold usedAnswers
    induction a with
    | nil => simp [throughTimeout]
    | cons x rest ih => cases x <;> simp_all [throughTimeout, sawTimeout]

theorem timeouts_append (a b : List Answer) : timeouts (a ++ b) = timeouts a + timeouts b := by
  simp [timeouts]

theorem slotCalls_append (w : Bool) {txs1 : List Byte} {as1 : List Answer} (txs2 : List Byte) (as2 : List Answer)
    (h : txs1.length = as1.length) :
    slotCalls w (txs1 ++ txs2) (as1 ++ as2) = slotCalls w txs1 as1 ++ slotCalls w txs2 as2 :=
  List.zipWith_append h

theorem slotCalls_append_short (w : Bool) {txs1 : List Byte} {as1 : List Answer} (txs2 : List Byte)
    (h : as1.length ≤ txs1.length) : slotCalls w (txs1 ++ txs2) as1 = slotCalls w txs1 as1 := by
  induction txs1 generalizing as1 with
  | nil =>
    have : as1 = [] := List.length_eq_zero_iff.1 (by simpa using h)
    simp [this, slotCalls]
  | cons t rest ih =>
    cases as1 with
    | nil => simp [slotCalls]
    | cons a as =>
      have := ih (as1 := as) (by simpa using h)
      simpa [slotCalls] using this

theorem length_slotCalls_le (w : Bool) (txs : List Byte) (as : List Answer) :
    (slotCalls w txs as).length ≤ txs.length := by
  simp [slotCalls]

/-- Enough slots make one call for each answer. -/
theorem length_slotCalls {w : Bool} {txs : List Byte} {as : List Answer} (h : as.length ≤ txs.length) :
    (slotCalls w txs as).length = as.length := by
  simp [slotCalls, h]

/-- Some call timed out exactly when some answer did. -/
theorem timeout_mem_slotCalls {w : Bool} {txs : List Byte} {as : List Answer} (h : as.length ≤ txs.length) :
    (∃ tx, TransportCall.xfer tx .timeout ∈ slotCalls w txs as) ↔ Answer.timeout ∈ as := by
  induction as generalizing txs with
  | nil => simp [slotCalls]
  | cons a as ih =>
    cases txs with
    | nil => simp at h
    | cons x txs =>
      have := ih (txs := txs) (by simpa using h)
      simp only [slotCalls] at this
      simp only [slotCalls, List.zipWith_cons_cons, List.mem_cons, exists_or, this]
      cases a <;> simp [observed]

theorem isXfer_of_mem_slotCalls {w : Bool} {txs : List Byte} {as : List Answer} {c : TransportCall}
    (h : c ∈ slotCalls w txs as) : isXfer c = true := by
  unfold slotCalls at h
  rw [List.zipWith_eq_zipWith_take_min] at h
  obtain ⟨i, hi, rfl⟩ := List.mem_iff_getElem.1 h
  simp [isXfer]

@[simp] theorem length_encodeByte (b : Byte) : (encodeByte b).length = 8 := rfl

@[simp] theorem length_byteSlots (bytes : List Byte) : (byteSlots bytes).length = 8 * bytes.length := by
  induction bytes with
  | nil => rfl
  | cons b rest ih =>
    have : byteSlots (b :: rest) = encodeByte b ++ byteSlots rest := rfl
    simp [this, ih]
    omega

@[simp] theorem length_readSlots (n : Nat) : (readSlots n).length = n := by simp [readSlots]

theorem readSlots_add (m n : Nat) : readSlots (m + n) = readSlots m ++ readSlots n :=
  List.replicate_add _ _ _

theorem readBits_append (a b : List Answer) (d : Nat) :
    readBits (a ++ b) d = readBits a d ++ readBits b (d + timeouts a) := by
  induction a generalizing d with
  | nil => simp [readBits, timeouts]
  | cons x rest ih =>
    cases x with
    | ok rx =>
      have : timeouts (Answer.ok rx :: rest) = timeouts rest := by simp [timeouts]
      simp [readBits, ih, this]
    | timeout =>
      have : timeouts (Answer.timeout :: rest) = timeouts rest + 1 := by simp [timeouts]
      simp [readBits, ih, this, Nat.add_assoc, Nat.add_comm 1]

@[simp] theorem length_readBits (a : List Answer) (d : Nat) : (readBits a d).length = a.length := by
  induction a generalizing d with
  | nil => rfl
  | cons x rest ih => cases x <;> simp [readBits, ih]

end Sys2Proof.Machine
end

