-- ==== Sys2Proof/Laws/Memory.lean ====
section
/-! SUPPORT. The laws of buffer memory (spec R52): read after write, and the canonical form. -/

namespace Sys2Proof.Machine

@[simp] theorem Memory.read_nil (a : Nat) : Memory.read [] a = unwrittenByte := rfl

@[simp] theorem Memory.wf_nil : Memory.wf [] = true := rfl

theorem Memory.read_cons (b : Nat) (u : Byte) (m : Memory) (a : Nat) :
    Memory.read ((b, u) :: m) a = if a = b then u else Memory.read m a := rfl

/-- A write changes no other byte, canonical or not. -/
theorem Memory.read_write_other (m : Memory) {a a' : Nat} (v : Byte) (h : a' ≠ a) :
    Memory.read (Memory.write m a v) a' = Memory.read m a' := by
  induction m with
  | nil =>
    unfold Memory.write
    split <;> simp [Memory.read_cons, h]
  | cons c rest ih =>
    obtain ⟨b, u⟩ := c
    unfold Memory.write
    split
    · split <;> simp [Memory.read_cons, h]
    · split
      · rename_i hab
        have hb : a' ≠ b := hab ▸ h
        split <;> simp [Memory.read_cons, h, hb]
      · simp [Memory.read_cons, ih]

theorem Memory.wfFrom_cons (lo b : Nat) (u : Byte) (m : Memory) :
    Memory.wfFrom lo ((b, u) :: m) = true ↔
      lo ≤ b ∧ u ≠ unwrittenByte ∧ Memory.wfFrom (b + 1) m = true := by
  simp [Memory.wfFrom, and_assoc]

theorem Memory.wfFrom_mono {lo lo' : Nat} {m : Memory} (hle : lo' ≤ lo) (h : Memory.wfFrom lo m = true) :
    Memory.wfFrom lo' m = true := by
  cases m with
  | nil => rfl
  | cons c rest =>
    obtain ⟨b, u⟩ := c
    rw [Memory.wfFrom_cons] at h ⊢
    exact ⟨le_trans hle h.1, h.2⟩

/-- Below the first listed address every byte reads as unwritten. -/
theorem Memory.read_below {lo a : Nat} {m : Memory} (h : Memory.wfFrom lo m = true) (ha : a < lo) :
    Memory.read m a = unwrittenByte := by
  induction m generalizing lo with
  | nil => rfl
  | cons c rest ih =>
    obtain ⟨b, u⟩ := c
    rw [Memory.wfFrom_cons] at h
    rw [Memory.read_cons, if_neg (by omega)]
    exact ih h.2.2 (by omega)

theorem Memory.read_write_same_from {lo a : Nat} {m : Memory} (h : Memory.wfFrom lo m = true) (v : Byte) :
    Memory.read (Memory.write m a v) a = v := by
  induction m generalizing lo with
  | nil =>
    unfold Memory.write
    split
    · rename_i hv
      simp [hv]
    · simp [Memory.read_cons]
  | cons c rest ih =>
    obtain ⟨b, u⟩ := c
    rw [Memory.wfFrom_cons] at h
    unfold Memory.write
    split
    · rename_i hab
      split
      · rename_i hv
        rw [Memory.read_cons, if_neg (by omega), Memory.read_below h.2.2 (by omega), hv]
      · simp [Memory.read_cons]
    · split
      · rename_i hab
        split
        · rename_i hv
          rw [Memory.read_below h.2.2 (by omega), hv]
        · simp [Memory.read_cons]
      · rename_i hab
        rw [Memory.read_cons, if_neg hab]
        exact ih h.2.2

/-- A byte written reads back. -/
theorem Memory.read_write_same {m : Memory} (h : m.wf = true) (a : Nat) (v : Byte) :
    Memory.read (Memory.write m a v) a = v :=
  Memory.read_write_same_from h v

theorem Memory.write_wfFrom {lo a : Nat} {m : Memory} (h : Memory.wfFrom lo m = true) (ha : lo ≤ a) (v : Byte) :
    Memory.wfFrom lo (Memory.write m a v) = true := by
  induction m generalizing lo with
  | nil =>
    unfold Memory.write
    split
    · rfl
    · rename_i hv
      rw [Memory.wfFrom_cons]
      exact ⟨ha, hv, rfl⟩
  | cons c rest ih =>
    obtain ⟨b, u⟩ := c
    have h' := (Memory.wfFrom_cons lo b u rest).1 h
    unfold Memory.write
    split
    · rename_i hab
      split
      · exact h
      · rename_i hv
        rw [Memory.wfFrom_cons, Memory.wfFrom_cons]
        exact ⟨ha, hv, by omega, h'.2⟩
    · split
      · rename_i hab
        split
        · exact Memory.wfFrom_mono (by omega) h'.2.2
        · rename_i hv
          rw [Memory.wfFrom_cons]
          exact ⟨ha, hv, hab ▸ h'.2.2⟩
      · rw [Memory.wfFrom_cons]
        exact ⟨h'.1, h'.2.1, ih h'.2.2 (by omega)⟩

/-- A write keeps the canonical form. -/
theorem Memory.write_wf {m : Memory} (h : m.wf = true) (a : Nat) (v : Byte) : (m.write a v).wf = true :=
  Memory.write_wfFrom h (Nat.zero_le a) v

/-- A write lists no address but its own and those listed before. -/
theorem Memory.mem_write {m : Memory} {a : Nat} {v : Byte} {c : Host.Cell} (h : c ∈ m.write a v) :
    c.1 = a ∨ c ∈ m := by
  induction m with
  | nil =>
    unfold Memory.write at h
    split at h <;> simp_all
  | cons d rest ih =>
    obtain ⟨b, u⟩ := d
    unfold Memory.write at h
    split at h
    · split at h
      · exact .inr h
      · rcases List.mem_cons.1 h with rfl | h
        · exact .inl rfl
        · exact .inr h
    · split at h
      · split at h
        · exact .inr (List.mem_cons_of_mem _ h)
        · rcases List.mem_cons.1 h with rfl | h
          · exact .inl rfl
          · exact .inr (List.mem_cons_of_mem _ h)
      · rcases List.mem_cons.1 h with rfl | h
        · exact .inr List.mem_cons_self
        · exact (ih h).imp id (List.mem_cons_of_mem _)

end Sys2Proof.Machine
end

