-- ==== Sys2Proof/Laws/State.lean ====
section
/-! SUPPORT. One lemma per field per register write: what each update of State leaves in each field. -/

namespace Sys2Proof.Machine

/-! ### setCmd -/

@[simp] theorem State.setCmd_cmd (w : Word) (s : State) : (s.setCmd w).cmd = w := rfl
@[simp] theorem State.setCmd_addr (w : Word) (s : State) : (s.setCmd w).addr = s.addr := rfl
@[simp] theorem State.setCmd_result (w : Word) (s : State) : (s.setCmd w).result = s.result := rfl
@[simp] theorem State.setCmd_session (w : Word) (s : State) : (s.setCmd w).session = s.session := rfl
@[simp] theorem State.setCmd_cmdErr (w : Word) (s : State) : (s.setCmd w).cmdErr = s.cmdErr := rfl
@[simp] theorem State.setCmd_rate (w : Word) (s : State) : (s.setCmd w).rate = s.rate := rfl
@[simp] theorem State.setCmd_seq (w : Word) (s : State) : (s.setCmd w).seq = s.seq := rfl
@[simp] theorem State.setCmd_mem (w : Word) (s : State) : (s.setCmd w).mem = s.mem := rfl
@[simp] theorem State.setCmd_cfg (w : Word) (s : State) : (s.setCmd w).cfg = s.cfg := rfl
@[simp] theorem State.setCmd_answers (w : Word) (s : State) : (s.setCmd w).answers = s.answers := rfl
@[simp] theorem State.setCmd_xferCount (w : Word) (s : State) : (s.setCmd w).xferCount = s.xferCount := rfl
@[simp] theorem State.setCmd_drawCount (w : Word) (s : State) : (s.setCmd w).drawCount = s.drawCount := rfl
@[simp] theorem State.setCmd_calls (w : Word) (s : State) : (s.setCmd w).calls = s.calls := rfl
@[simp] theorem State.setCmd_host (w : Word) (s : State) : (s.setCmd w).host = s.host := rfl
@[simp] theorem State.setCmd_reads (w : Word) (s : State) : (s.setCmd w).reads = s.reads := rfl

/-! ### setAddr -/

@[simp] theorem State.setAddr_cmd (w : Word) (s : State) : (s.setAddr w).cmd = s.cmd := rfl
@[simp] theorem State.setAddr_addr (w : Word) (s : State) : (s.setAddr w).addr = w := rfl
@[simp] theorem State.setAddr_result (w : Word) (s : State) : (s.setAddr w).result = s.result := rfl
@[simp] theorem State.setAddr_session (w : Word) (s : State) : (s.setAddr w).session = s.session := rfl
@[simp] theorem State.setAddr_cmdErr (w : Word) (s : State) : (s.setAddr w).cmdErr = s.cmdErr := rfl
@[simp] theorem State.setAddr_rate (w : Word) (s : State) : (s.setAddr w).rate = s.rate := rfl
@[simp] theorem State.setAddr_seq (w : Word) (s : State) : (s.setAddr w).seq = s.seq := rfl
@[simp] theorem State.setAddr_mem (w : Word) (s : State) : (s.setAddr w).mem = s.mem := rfl
@[simp] theorem State.setAddr_cfg (w : Word) (s : State) : (s.setAddr w).cfg = s.cfg := rfl
@[simp] theorem State.setAddr_answers (w : Word) (s : State) : (s.setAddr w).answers = s.answers := rfl
@[simp] theorem State.setAddr_xferCount (w : Word) (s : State) : (s.setAddr w).xferCount = s.xferCount := rfl
@[simp] theorem State.setAddr_drawCount (w : Word) (s : State) : (s.setAddr w).drawCount = s.drawCount := rfl
@[simp] theorem State.setAddr_calls (w : Word) (s : State) : (s.setAddr w).calls = s.calls := rfl
@[simp] theorem State.setAddr_host (w : Word) (s : State) : (s.setAddr w).host = s.host := rfl
@[simp] theorem State.setAddr_reads (w : Word) (s : State) : (s.setAddr w).reads = s.reads := rfl

/-! ### setResult -/

@[simp] theorem State.setResult_cmd (v : Byte) (s : State) : (s.setResult v).cmd = s.cmd := rfl
@[simp] theorem State.setResult_addr (v : Byte) (s : State) : (s.setResult v).addr = s.addr := rfl
@[simp] theorem State.setResult_result (v : Byte) (s : State) : (s.setResult v).result = v.zext := rfl
@[simp] theorem State.setResult_session (v : Byte) (s : State) : (s.setResult v).session = s.session := rfl
@[simp] theorem State.setResult_cmdErr (v : Byte) (s : State) : (s.setResult v).cmdErr = s.cmdErr := rfl
@[simp] theorem State.setResult_rate (v : Byte) (s : State) : (s.setResult v).rate = s.rate := rfl
@[simp] theorem State.setResult_seq (v : Byte) (s : State) : (s.setResult v).seq = s.seq := rfl
@[simp] theorem State.setResult_mem (v : Byte) (s : State) : (s.setResult v).mem = s.mem := rfl
@[simp] theorem State.setResult_cfg (v : Byte) (s : State) : (s.setResult v).cfg = s.cfg := rfl
@[simp] theorem State.setResult_answers (v : Byte) (s : State) : (s.setResult v).answers = s.answers := rfl
@[simp] theorem State.setResult_xferCount (v : Byte) (s : State) : (s.setResult v).xferCount = s.xferCount := rfl
@[simp] theorem State.setResult_drawCount (v : Byte) (s : State) : (s.setResult v).drawCount = s.drawCount := rfl
@[simp] theorem State.setResult_calls (v : Byte) (s : State) : (s.setResult v).calls = s.calls := rfl
@[simp] theorem State.setResult_host (v : Byte) (s : State) : (s.setResult v).host = s.host := rfl
@[simp] theorem State.setResult_reads (v : Byte) (s : State) : (s.setResult v).reads = s.reads := rfl

/-! ### setSession -/

@[simp] theorem State.setSession_cmd (v : Session) (s : State) : (s.setSession v).cmd = s.cmd := rfl
@[simp] theorem State.setSession_addr (v : Session) (s : State) : (s.setSession v).addr = s.addr := rfl
@[simp] theorem State.setSession_result (v : Session) (s : State) : (s.setSession v).result = s.result := rfl
@[simp] theorem State.setSession_session (v : Session) (s : State) : (s.setSession v).session = v := rfl
@[simp] theorem State.setSession_cmdErr (v : Session) (s : State) : (s.setSession v).cmdErr = s.cmdErr := rfl
@[simp] theorem State.setSession_rate (v : Session) (s : State) : (s.setSession v).rate = s.rate := rfl
@[simp] theorem State.setSession_seq (v : Session) (s : State) : (s.setSession v).seq = s.seq := rfl
@[simp] theorem State.setSession_mem (v : Session) (s : State) : (s.setSession v).mem = s.mem := rfl
@[simp] theorem State.setSession_cfg (v : Session) (s : State) : (s.setSession v).cfg = s.cfg := rfl
@[simp] theorem State.setSession_answers (v : Session) (s : State) : (s.setSession v).answers = s.answers := rfl
@[simp] theorem State.setSession_xferCount (v : Session) (s : State) : (s.setSession v).xferCount = s.xferCount := rfl
@[simp] theorem State.setSession_drawCount (v : Session) (s : State) : (s.setSession v).drawCount = s.drawCount := rfl
@[simp] theorem State.setSession_calls (v : Session) (s : State) : (s.setSession v).calls = s.calls := rfl
@[simp] theorem State.setSession_host (v : Session) (s : State) : (s.setSession v).host = s.host := rfl
@[simp] theorem State.setSession_reads (v : Session) (s : State) : (s.setSession v).reads = s.reads := rfl

/-! ### setCmdErr -/

@[simp] theorem State.setCmdErr_cmd (v : Bool) (s : State) : (s.setCmdErr v).cmd = s.cmd := rfl
@[simp] theorem State.setCmdErr_addr (v : Bool) (s : State) : (s.setCmdErr v).addr = s.addr := rfl
@[simp] theorem State.setCmdErr_result (v : Bool) (s : State) : (s.setCmdErr v).result = s.result := rfl
@[simp] theorem State.setCmdErr_session (v : Bool) (s : State) : (s.setCmdErr v).session = s.session := rfl
@[simp] theorem State.setCmdErr_cmdErr (v : Bool) (s : State) : (s.setCmdErr v).cmdErr = v := rfl
@[simp] theorem State.setCmdErr_rate (v : Bool) (s : State) : (s.setCmdErr v).rate = s.rate := rfl
@[simp] theorem State.setCmdErr_seq (v : Bool) (s : State) : (s.setCmdErr v).seq = s.seq := rfl
@[simp] theorem State.setCmdErr_mem (v : Bool) (s : State) : (s.setCmdErr v).mem = s.mem := rfl
@[simp] theorem State.setCmdErr_cfg (v : Bool) (s : State) : (s.setCmdErr v).cfg = s.cfg := rfl
@[simp] theorem State.setCmdErr_answers (v : Bool) (s : State) : (s.setCmdErr v).answers = s.answers := rfl
@[simp] theorem State.setCmdErr_xferCount (v : Bool) (s : State) : (s.setCmdErr v).xferCount = s.xferCount := rfl
@[simp] theorem State.setCmdErr_drawCount (v : Bool) (s : State) : (s.setCmdErr v).drawCount = s.drawCount := rfl
@[simp] theorem State.setCmdErr_calls (v : Bool) (s : State) : (s.setCmdErr v).calls = s.calls := rfl
@[simp] theorem State.setCmdErr_host (v : Bool) (s : State) : (s.setCmdErr v).host = s.host := rfl
@[simp] theorem State.setCmdErr_reads (v : Bool) (s : State) : (s.setCmdErr v).reads = s.reads := rfl

/-! ### setRate -/

@[simp] theorem State.setRate_cmd (v : Rate) (s : State) : (s.setRate v).cmd = s.cmd := rfl
@[simp] theorem State.setRate_addr (v : Rate) (s : State) : (s.setRate v).addr = s.addr := rfl
@[simp] theorem State.setRate_result (v : Rate) (s : State) : (s.setRate v).result = s.result := rfl
@[simp] theorem State.setRate_session (v : Rate) (s : State) : (s.setRate v).session = s.session := rfl
@[simp] theorem State.setRate_cmdErr (v : Rate) (s : State) : (s.setRate v).cmdErr = s.cmdErr := rfl
@[simp] theorem State.setRate_rate (v : Rate) (s : State) : (s.setRate v).rate = v := rfl
@[simp] theorem State.setRate_seq (v : Rate) (s : State) : (s.setRate v).seq = s.seq := rfl
@[simp] theorem State.setRate_mem (v : Rate) (s : State) : (s.setRate v).mem = s.mem := rfl
@[simp] theorem State.setRate_cfg (v : Rate) (s : State) : (s.setRate v).cfg = s.cfg := rfl
@[simp] theorem State.setRate_answers (v : Rate) (s : State) : (s.setRate v).answers = s.answers := rfl
@[simp] theorem State.setRate_xferCount (v : Rate) (s : State) : (s.setRate v).xferCount = s.xferCount := rfl
@[simp] theorem State.setRate_drawCount (v : Rate) (s : State) : (s.setRate v).drawCount = s.drawCount := rfl
@[simp] theorem State.setRate_calls (v : Rate) (s : State) : (s.setRate v).calls = s.calls := rfl
@[simp] theorem State.setRate_host (v : Rate) (s : State) : (s.setRate v).host = s.host := rfl
@[simp] theorem State.setRate_reads (v : Rate) (s : State) : (s.setRate v).reads = s.reads := rfl

/-! ### setSeq -/

@[simp] theorem State.setSeq_cmd (q : Seq) (s : State) : (s.setSeq q).cmd = s.cmd := rfl
@[simp] theorem State.setSeq_addr (q : Seq) (s : State) : (s.setSeq q).addr = s.addr := rfl
@[simp] theorem State.setSeq_result (q : Seq) (s : State) : (s.setSeq q).result = s.result := rfl
@[simp] theorem State.setSeq_session (q : Seq) (s : State) : (s.setSeq q).session = s.session := rfl
@[simp] theorem State.setSeq_cmdErr (q : Seq) (s : State) : (s.setSeq q).cmdErr = s.cmdErr := rfl
@[simp] theorem State.setSeq_rate (q : Seq) (s : State) : (s.setSeq q).rate = s.rate := rfl
@[simp] theorem State.setSeq_seq (q : Seq) (s : State) : (s.setSeq q).seq = q := rfl
@[simp] theorem State.setSeq_mem (q : Seq) (s : State) : (s.setSeq q).mem = s.mem := rfl
@[simp] theorem State.setSeq_cfg (q : Seq) (s : State) : (s.setSeq q).cfg = s.cfg := rfl
@[simp] theorem State.setSeq_answers (q : Seq) (s : State) : (s.setSeq q).answers = s.answers := rfl
@[simp] theorem State.setSeq_xferCount (q : Seq) (s : State) : (s.setSeq q).xferCount = s.xferCount := rfl
@[simp] theorem State.setSeq_drawCount (q : Seq) (s : State) : (s.setSeq q).drawCount = s.drawCount := rfl
@[simp] theorem State.setSeq_calls (q : Seq) (s : State) : (s.setSeq q).calls = s.calls := rfl
@[simp] theorem State.setSeq_host (q : Seq) (s : State) : (s.setSeq q).host = s.host := rfl
@[simp] theorem State.setSeq_reads (q : Seq) (s : State) : (s.setSeq q).reads = s.reads := rfl

/-! ### setMem -/

@[simp] theorem State.setMem_cmd (m : Memory) (s : State) : (s.setMem m).cmd = s.cmd := rfl
@[simp] theorem State.setMem_addr (m : Memory) (s : State) : (s.setMem m).addr = s.addr := rfl
@[simp] theorem State.setMem_result (m : Memory) (s : State) : (s.setMem m).result = s.result := rfl
@[simp] theorem State.setMem_session (m : Memory) (s : State) : (s.setMem m).session = s.session := rfl
@[simp] theorem State.setMem_cmdErr (m : Memory) (s : State) : (s.setMem m).cmdErr = s.cmdErr := rfl
@[simp] theorem State.setMem_rate (m : Memory) (s : State) : (s.setMem m).rate = s.rate := rfl
@[simp] theorem State.setMem_seq (m : Memory) (s : State) : (s.setMem m).seq = s.seq := rfl
@[simp] theorem State.setMem_mem (m : Memory) (s : State) : (s.setMem m).mem = m := rfl
@[simp] theorem State.setMem_cfg (m : Memory) (s : State) : (s.setMem m).cfg = s.cfg := rfl
@[simp] theorem State.setMem_answers (m : Memory) (s : State) : (s.setMem m).answers = s.answers := rfl
@[simp] theorem State.setMem_xferCount (m : Memory) (s : State) : (s.setMem m).xferCount = s.xferCount := rfl
@[simp] theorem State.setMem_drawCount (m : Memory) (s : State) : (s.setMem m).drawCount = s.drawCount := rfl
@[simp] theorem State.setMem_calls (m : Memory) (s : State) : (s.setMem m).calls = s.calls := rfl
@[simp] theorem State.setMem_host (m : Memory) (s : State) : (s.setMem m).host = s.host := rfl
@[simp] theorem State.setMem_reads (m : Memory) (s : State) : (s.setMem m).reads = s.reads := rfl

/-! ### setHost -/

@[simp] theorem State.setHost_cmd (h : List HostAction) (s : State) : (s.setHost h).cmd = s.cmd := rfl
@[simp] theorem State.setHost_addr (h : List HostAction) (s : State) : (s.setHost h).addr = s.addr := rfl
@[simp] theorem State.setHost_result (h : List HostAction) (s : State) : (s.setHost h).result = s.result := rfl
@[simp] theorem State.setHost_session (h : List HostAction) (s : State) : (s.setHost h).session = s.session := rfl
@[simp] theorem State.setHost_cmdErr (h : List HostAction) (s : State) : (s.setHost h).cmdErr = s.cmdErr := rfl
@[simp] theorem State.setHost_rate (h : List HostAction) (s : State) : (s.setHost h).rate = s.rate := rfl
@[simp] theorem State.setHost_seq (h : List HostAction) (s : State) : (s.setHost h).seq = s.seq := rfl
@[simp] theorem State.setHost_mem (h : List HostAction) (s : State) : (s.setHost h).mem = s.mem := rfl
@[simp] theorem State.setHost_cfg (h : List HostAction) (s : State) : (s.setHost h).cfg = s.cfg := rfl
@[simp] theorem State.setHost_answers (h : List HostAction) (s : State) : (s.setHost h).answers = s.answers := rfl
@[simp] theorem State.setHost_xferCount (h : List HostAction) (s : State) : (s.setHost h).xferCount = s.xferCount := rfl
@[simp] theorem State.setHost_drawCount (h : List HostAction) (s : State) : (s.setHost h).drawCount = s.drawCount := rfl
@[simp] theorem State.setHost_calls (h : List HostAction) (s : State) : (s.setHost h).calls = s.calls := rfl
@[simp] theorem State.setHost_host (h : List HostAction) (s : State) : (s.setHost h).host = h := rfl
@[simp] theorem State.setHost_reads (h : List HostAction) (s : State) : (s.setHost h).reads = s.reads := rfl

/-! ### logRead -/

@[simp] theorem State.logRead_cmd (v : Word) (s : State) : (s.logRead v).cmd = s.cmd := rfl
@[simp] theorem State.logRead_addr (v : Word) (s : State) : (s.logRead v).addr = s.addr := rfl
@[simp] theorem State.logRead_result (v : Word) (s : State) : (s.logRead v).result = s.result := rfl
@[simp] theorem State.logRead_session (v : Word) (s : State) : (s.logRead v).session = s.session := rfl
@[simp] theorem State.logRead_cmdErr (v : Word) (s : State) : (s.logRead v).cmdErr = s.cmdErr := rfl
@[simp] theorem State.logRead_rate (v : Word) (s : State) : (s.logRead v).rate = s.rate := rfl
@[simp] theorem State.logRead_seq (v : Word) (s : State) : (s.logRead v).seq = s.seq := rfl
@[simp] theorem State.logRead_mem (v : Word) (s : State) : (s.logRead v).mem = s.mem := rfl
@[simp] theorem State.logRead_cfg (v : Word) (s : State) : (s.logRead v).cfg = s.cfg := rfl
@[simp] theorem State.logRead_answers (v : Word) (s : State) : (s.logRead v).answers = s.answers := rfl
@[simp] theorem State.logRead_xferCount (v : Word) (s : State) : (s.logRead v).xferCount = s.xferCount := rfl
@[simp] theorem State.logRead_drawCount (v : Word) (s : State) : (s.logRead v).drawCount = s.drawCount := rfl
@[simp] theorem State.logRead_calls (v : Word) (s : State) : (s.logRead v).calls = s.calls := rfl
@[simp] theorem State.logRead_host (v : Word) (s : State) : (s.logRead v).host = s.host := rfl
@[simp] theorem State.logRead_reads (v : Word) (s : State) : (s.logRead v).reads = s.reads ++ [v] := rfl

/-! ### logCall -/

@[simp] theorem State.logCall_cmd (c : TransportCall) (s : State) : (s.logCall c).cmd = s.cmd := rfl
@[simp] theorem State.logCall_addr (c : TransportCall) (s : State) : (s.logCall c).addr = s.addr := rfl
@[simp] theorem State.logCall_result (c : TransportCall) (s : State) : (s.logCall c).result = s.result := rfl
@[simp] theorem State.logCall_session (c : TransportCall) (s : State) : (s.logCall c).session = s.session := rfl
@[simp] theorem State.logCall_cmdErr (c : TransportCall) (s : State) : (s.logCall c).cmdErr = s.cmdErr := rfl
@[simp] theorem State.logCall_rate (c : TransportCall) (s : State) : (s.logCall c).rate = s.rate := rfl
@[simp] theorem State.logCall_seq (c : TransportCall) (s : State) : (s.logCall c).seq = s.seq := rfl
@[simp] theorem State.logCall_mem (c : TransportCall) (s : State) : (s.logCall c).mem = s.mem := rfl
@[simp] theorem State.logCall_cfg (c : TransportCall) (s : State) : (s.logCall c).cfg = s.cfg := rfl
@[simp] theorem State.logCall_answers (c : TransportCall) (s : State) : (s.logCall c).answers = s.answers := rfl
@[simp] theorem State.logCall_xferCount (c : TransportCall) (s : State) : (s.logCall c).xferCount = s.xferCount := rfl
@[simp] theorem State.logCall_drawCount (c : TransportCall) (s : State) : (s.logCall c).drawCount = s.drawCount := rfl
@[simp] theorem State.logCall_calls (c : TransportCall) (s : State) : (s.logCall c).calls = s.calls ++ [c] := rfl
@[simp] theorem State.logCall_host (c : TransportCall) (s : State) : (s.logCall c).host = s.host := rfl
@[simp] theorem State.logCall_reads (c : TransportCall) (s : State) : (s.logCall c).reads = s.reads := rfl

/-! ### countDraw -/

@[simp] theorem State.countDraw_cmd (s : State) : (s.countDraw).cmd = s.cmd := rfl
@[simp] theorem State.countDraw_addr (s : State) : (s.countDraw).addr = s.addr := rfl
@[simp] theorem State.countDraw_result (s : State) : (s.countDraw).result = s.result := rfl
@[simp] theorem State.countDraw_session (s : State) : (s.countDraw).session = s.session := rfl
@[simp] theorem State.countDraw_cmdErr (s : State) : (s.countDraw).cmdErr = s.cmdErr := rfl
@[simp] theorem State.countDraw_rate (s : State) : (s.countDraw).rate = s.rate := rfl
@[simp] theorem State.countDraw_seq (s : State) : (s.countDraw).seq = s.seq := rfl
@[simp] theorem State.countDraw_mem (s : State) : (s.countDraw).mem = s.mem := rfl
@[simp] theorem State.countDraw_cfg (s : State) : (s.countDraw).cfg = s.cfg := rfl
@[simp] theorem State.countDraw_answers (s : State) : (s.countDraw).answers = s.answers := rfl
@[simp] theorem State.countDraw_xferCount (s : State) : (s.countDraw).xferCount = s.xferCount := rfl
@[simp] theorem State.countDraw_drawCount (s : State) : (s.countDraw).drawCount = s.drawCount + 1 := rfl
@[simp] theorem State.countDraw_calls (s : State) : (s.countDraw).calls = s.calls := rfl
@[simp] theorem State.countDraw_host (s : State) : (s.countDraw).host = s.host := rfl
@[simp] theorem State.countDraw_reads (s : State) : (s.countDraw).reads = s.reads := rfl

/-! ### takeAnswer -/

@[simp] theorem State.takeAnswer_cmd (s : State) : (s.takeAnswer).cmd = s.cmd := rfl
@[simp] theorem State.takeAnswer_addr (s : State) : (s.takeAnswer).addr = s.addr := rfl
@[simp] theorem State.takeAnswer_result (s : State) : (s.takeAnswer).result = s.result := rfl
@[simp] theorem State.takeAnswer_session (s : State) : (s.takeAnswer).session = s.session := rfl
@[simp] theorem State.takeAnswer_cmdErr (s : State) : (s.takeAnswer).cmdErr = s.cmdErr := rfl
@[simp] theorem State.takeAnswer_rate (s : State) : (s.takeAnswer).rate = s.rate := rfl
@[simp] theorem State.takeAnswer_seq (s : State) : (s.takeAnswer).seq = s.seq := rfl
@[simp] theorem State.takeAnswer_mem (s : State) : (s.takeAnswer).mem = s.mem := rfl
@[simp] theorem State.takeAnswer_cfg (s : State) : (s.takeAnswer).cfg = s.cfg := rfl
@[simp] theorem State.takeAnswer_answers (s : State) : (s.takeAnswer).answers = s.answers.tail := rfl
@[simp] theorem State.takeAnswer_xferCount (s : State) : (s.takeAnswer).xferCount = s.xferCount + 1 := rfl
@[simp] theorem State.takeAnswer_drawCount (s : State) : (s.takeAnswer).drawCount = s.drawCount := rfl
@[simp] theorem State.takeAnswer_calls (s : State) : (s.takeAnswer).calls = s.calls := rfl
@[simp] theorem State.takeAnswer_host (s : State) : (s.takeAnswer).host = s.host := rfl
@[simp] theorem State.takeAnswer_reads (s : State) : (s.takeAnswer).reads = s.reads := rfl

/-! ### begin -/

@[simp] theorem State.begin_cmd (opc : Byte) (s : State) : (s.begin opc).cmd = s.cmd := rfl
@[simp] theorem State.begin_addr (opc : Byte) (s : State) : (s.begin opc).addr = s.addr := rfl
@[simp] theorem State.begin_result (opc : Byte) (s : State) : (s.begin opc).result = s.result := rfl
@[simp] theorem State.begin_session (opc : Byte) (s : State) : (s.begin opc).session = s.session := rfl
@[simp] theorem State.begin_cmdErr (opc : Byte) (s : State) : (s.begin opc).cmdErr = false := rfl
@[simp] theorem State.begin_rate (opc : Byte) (s : State) : (s.begin opc).rate = s.rate := rfl
@[simp] theorem State.begin_seq (opc : Byte) (s : State) : (s.begin opc).seq = { s.seq with op := some opc } := rfl
@[simp] theorem State.begin_mem (opc : Byte) (s : State) : (s.begin opc).mem = s.mem := rfl
@[simp] theorem State.begin_cfg (opc : Byte) (s : State) : (s.begin opc).cfg = s.cfg := rfl
@[simp] theorem State.begin_answers (opc : Byte) (s : State) : (s.begin opc).answers = s.answers := rfl
@[simp] theorem State.begin_xferCount (opc : Byte) (s : State) : (s.begin opc).xferCount = s.xferCount := rfl
@[simp] theorem State.begin_drawCount (opc : Byte) (s : State) : (s.begin opc).drawCount = s.drawCount := rfl
@[simp] theorem State.begin_calls (opc : Byte) (s : State) : (s.begin opc).calls = s.calls := rfl
@[simp] theorem State.begin_host (opc : Byte) (s : State) : (s.begin opc).host = s.host := rfl
@[simp] theorem State.begin_reads (opc : Byte) (s : State) : (s.begin opc).reads = s.reads := rfl

/-! ### complete -/

@[simp] theorem State.complete_cmd (s : State) : (s.complete).cmd = s.cmd := rfl
@[simp] theorem State.complete_addr (s : State) : (s.complete).addr = s.addr := rfl
@[simp] theorem State.complete_result (s : State) : (s.complete).result = s.result := rfl
@[simp] theorem State.complete_session (s : State) : (s.complete).session = s.session := rfl
@[simp] theorem State.complete_cmdErr (s : State) : (s.complete).cmdErr = s.cmdErr := rfl
@[simp] theorem State.complete_rate (s : State) : (s.complete).rate = s.rate := rfl
@[simp] theorem State.complete_seq (s : State) : (s.complete).seq = { s.seq with op := none } := rfl
@[simp] theorem State.complete_mem (s : State) : (s.complete).mem = s.mem := rfl
@[simp] theorem State.complete_cfg (s : State) : (s.complete).cfg = s.cfg := rfl
@[simp] theorem State.complete_answers (s : State) : (s.complete).answers = s.answers := rfl
@[simp] theorem State.complete_xferCount (s : State) : (s.complete).xferCount = s.xferCount := rfl
@[simp] theorem State.complete_drawCount (s : State) : (s.complete).drawCount = s.drawCount := rfl
@[simp] theorem State.complete_calls (s : State) : (s.complete).calls = s.calls := rfl
@[simp] theorem State.complete_host (s : State) : (s.complete).host = s.host := rfl
@[simp] theorem State.complete_reads (s : State) : (s.complete).reads = s.reads := rfl

/-! ### setSpeed -/

@[simp] theorem State.setSpeed_cmd (r : Rate) (s : State) : (s.setSpeed r).cmd = s.cmd := rfl
@[simp] theorem State.setSpeed_addr (r : Rate) (s : State) : (s.setSpeed r).addr = s.addr := rfl
@[simp] theorem State.setSpeed_result (r : Rate) (s : State) : (s.setSpeed r).result = s.result := rfl
@[simp] theorem State.setSpeed_session (r : Rate) (s : State) : (s.setSpeed r).session = s.session := rfl
@[simp] theorem State.setSpeed_cmdErr (r : Rate) (s : State) : (s.setSpeed r).cmdErr = s.cmdErr := rfl
@[simp] theorem State.setSpeed_rate (r : Rate) (s : State) : (s.setSpeed r).rate = r := rfl
@[simp] theorem State.setSpeed_seq (r : Rate) (s : State) : (s.setSpeed r).seq = s.seq := rfl
@[simp] theorem State.setSpeed_mem (r : Rate) (s : State) : (s.setSpeed r).mem = s.mem := rfl
@[simp] theorem State.setSpeed_cfg (r : Rate) (s : State) : (s.setSpeed r).cfg = s.cfg := rfl
@[simp] theorem State.setSpeed_answers (r : Rate) (s : State) : (s.setSpeed r).answers = s.answers := rfl
@[simp] theorem State.setSpeed_xferCount (r : Rate) (s : State) : (s.setSpeed r).xferCount = s.xferCount := rfl
@[simp] theorem State.setSpeed_drawCount (r : Rate) (s : State) : (s.setSpeed r).drawCount = s.drawCount := rfl
@[simp] theorem State.setSpeed_calls (r : Rate) (s : State) : (s.setSpeed r).calls = s.calls ++ [.setSpeed r] := rfl
@[simp] theorem State.setSpeed_host (r : Rate) (s : State) : (s.setSpeed r).host = s.host := rfl
@[simp] theorem State.setSpeed_reads (r : Rate) (s : State) : (s.setSpeed r).reads = s.reads := rfl

/-! ### recover -/

@[simp] theorem State.recover_cmd (s : State) : (s.recover).cmd = s.cmd := rfl
@[simp] theorem State.recover_addr (s : State) : (s.recover).addr = s.addr := rfl
@[simp] theorem State.recover_result (s : State) : (s.recover).result = s.result := rfl
@[simp] theorem State.recover_session (s : State) : (s.recover).session = .ok := rfl
@[simp] theorem State.recover_cmdErr (s : State) : (s.recover).cmdErr = s.cmdErr := rfl
@[simp] theorem State.recover_rate (s : State) : (s.recover).rate = s.rate := rfl
@[simp] theorem State.recover_seq (s : State) : (s.recover).seq = s.seq := rfl
@[simp] theorem State.recover_mem (s : State) : (s.recover).mem = s.mem := rfl
@[simp] theorem State.recover_cfg (s : State) : (s.recover).cfg = s.cfg := rfl
@[simp] theorem State.recover_answers (s : State) : (s.recover).answers = s.answers := rfl
@[simp] theorem State.recover_xferCount (s : State) : (s.recover).xferCount = s.xferCount := rfl
@[simp] theorem State.recover_drawCount (s : State) : (s.recover).drawCount = s.drawCount := rfl
@[simp] theorem State.recover_calls (s : State) : (s.recover).calls = s.calls ++ [.reinit] := rfl
@[simp] theorem State.recover_host (s : State) : (s.recover).host = s.host := rfl
@[simp] theorem State.recover_reads (s : State) : (s.recover).reads = s.reads := rfl

/-! ### raiseIllegalCommand -/

@[simp] theorem State.raiseIllegalCommand_cmd (s : State) : (s.raiseIllegalCommand).cmd = s.cmd := rfl
@[simp] theorem State.raiseIllegalCommand_addr (s : State) : (s.raiseIllegalCommand).addr = s.addr := rfl
@[simp] theorem State.raiseIllegalCommand_result (s : State) : (s.raiseIllegalCommand).result = s.result := rfl
@[simp] theorem State.raiseIllegalCommand_session (s : State) : (s.raiseIllegalCommand).session = s.session := rfl
@[simp] theorem State.raiseIllegalCommand_cmdErr (s : State) : (s.raiseIllegalCommand).cmdErr = true := rfl
@[simp] theorem State.raiseIllegalCommand_rate (s : State) : (s.raiseIllegalCommand).rate = s.rate := rfl
@[simp] theorem State.raiseIllegalCommand_seq (s : State) : (s.raiseIllegalCommand).seq = s.seq := rfl
@[simp] theorem State.raiseIllegalCommand_mem (s : State) : (s.raiseIllegalCommand).mem = s.mem := rfl
@[simp] theorem State.raiseIllegalCommand_cfg (s : State) : (s.raiseIllegalCommand).cfg = s.cfg := rfl
@[simp] theorem State.raiseIllegalCommand_answers (s : State) : (s.raiseIllegalCommand).answers = s.answers := rfl
@[simp] theorem State.raiseIllegalCommand_xferCount (s : State) : (s.raiseIllegalCommand).xferCount = s.xferCount := rfl
@[simp] theorem State.raiseIllegalCommand_drawCount (s : State) : (s.raiseIllegalCommand).drawCount = s.drawCount := rfl
@[simp] theorem State.raiseIllegalCommand_calls (s : State) : (s.raiseIllegalCommand).calls = s.calls := rfl
@[simp] theorem State.raiseIllegalCommand_host (s : State) : (s.raiseIllegalCommand).host = s.host := rfl
@[simp] theorem State.raiseIllegalCommand_reads (s : State) : (s.raiseIllegalCommand).reads = s.reads := rfl

/-! ### blockReset -/

@[simp] theorem State.blockReset_cmd (s : State) : (s.blockReset).cmd = 0#32 := rfl
@[simp] theorem State.blockReset_addr (s : State) : (s.blockReset).addr = 0#32 := rfl
@[simp] theorem State.blockReset_result (s : State) : (s.blockReset).result = 0#32 := rfl
@[simp] theorem State.blockReset_session (s : State) : (s.blockReset).session = .ok := rfl
@[simp] theorem State.blockReset_cmdErr (s : State) : (s.blockReset).cmdErr = false := rfl
@[simp] theorem State.blockReset_rate (s : State) : (s.blockReset).rate = .data := rfl
@[simp] theorem State.blockReset_seq (s : State) : (s.blockReset).seq = Seq.idle := rfl
@[simp] theorem State.blockReset_mem (s : State) : (s.blockReset).mem = s.mem := rfl
@[simp] theorem State.blockReset_cfg (s : State) : (s.blockReset).cfg = s.cfg := rfl
@[simp] theorem State.blockReset_answers (s : State) : (s.blockReset).answers = s.answers := rfl
@[simp] theorem State.blockReset_xferCount (s : State) : (s.blockReset).xferCount = s.xferCount := rfl
@[simp] theorem State.blockReset_drawCount (s : State) : (s.blockReset).drawCount = s.drawCount := rfl
@[simp] theorem State.blockReset_calls (s : State) : (s.blockReset).calls = s.calls := rfl
@[simp] theorem State.blockReset_host (s : State) : (s.blockReset).host = s.host := rfl
@[simp] theorem State.blockReset_reads (s : State) : (s.blockReset).reads = s.reads := rfl

end Sys2Proof.Machine
end

