-- ==== Sys2Proof/Laws/Runs.lean ====
section
/-! SUPPORT. What the shared operations of a command can do, said once: `xfer` and `slot`, the slot functions on a command
under way (`Slots`), and buffer requests. -/

namespace Sys2Proof.Machine

/-! ## One slot -/

theorem slot_snd (p : Params) (tx : Byte) (s : State) :
    (slot p tx s).2 =
      (s.takeAnswer.logCall (.xfer tx (observed p.wiredAnd tx s.nextAnswer))).setSession
        (if s.nextAnswer = .timeout then .timeout else s.session) := by
  unfold slot xfer
  cases h : s.nextAnswer <;> simp [observed, State.setSession, State.logCall, State.takeAnswer]

theorem slot_fst (p : Params) (tx : Byte) (s : State) :
    (slot p tx s).1 = match observed p.wiredAnd tx s.nextAnswer with
      | .ok rx => some rx
      | .timeout => none := by
  unfold slot xfer
  cases h : s.nextAnswer <;> simp [observed]

@[simp] theorem slot_fst_isNone (p : Params) (tx : Byte) (s : State) :
    (slot p tx s).1.isNone = decide (s.nextAnswer = .timeout) := by
  rw [slot_fst]
  cases s.nextAnswer <;> simp [observed]

/-- A slot looks at nothing of the sequencer and changes nothing of it. -/
theorem slot_setSeq (p : Params) (tx : Byte) (q : Seq) (s : State) :
    slot p tx (s.setSeq q) = ((slot p tx s).1, (slot p tx s).2.setSeq q) := by
  ext1
  · rw [slot_fst, slot_fst]; rfl
  · rw [slot_snd, slot_snd]; rfl

/-- A read slot decodes what the transport answered: the wired-AND premise is no limit on 0xFF (R233). -/
theorem observed_release (w : Bool) (a : Answer) : observed w Config.release a = a := by
  cases a with
  | ok rx =>
    have : rx &&& Config.release = rx := by
      apply BitVec.eq_of_toNat_eq
      have := rx.isLt
      simp [Config.release, Nat.and_two_pow_sub_one_eq_mod rx.toNat 8]
      omega
    simp [observed, this]
  | timeout => rfl

/-! ## A command under way -/

theorem Run.act_of_going {f : State → State} {r : Run} (h : r.going = true) :
    r.act f = { r with st := f r.st } := by
  simp [Run.act, h]

theorem Run.act_of_not_going {f : State → State} {r : Run} (h : r.going = false) : r.act f = r := by
  simp [Run.act, h]

@[simp] theorem Run.act_aborted (f : State → State) (r : Run) : (r.act f).aborted = r.aborted := rfl

@[simp] theorem Run.act_stuckAt (f : State → State) (r : Run) : (r.act f).stuckAt = r.stuckAt := rfl

@[simp] theorem Run.act_going (f : State → State) (r : Run) : (r.act f).going = r.going := rfl

@[simp] theorem Run.start_going (s : State) : (Run.start s).going = true := rfl

@[simp] theorem Run.start_st (s : State) : (Run.start s).st = s := rfl

@[simp] theorem Run.start_stuckAt (s : State) : (Run.start s).stuckAt = none := rfl

@[simp] theorem Run.start_aborted (s : State) : (Run.start s).aborted = false := rfl

theorem Run.going_iff (r : Run) : r.going = true ↔ r.aborted = false ∧ r.stuckAt = none := by
  simp [Run.going]

theorem Run.slot_of_not_going (p : Params) (tx : Byte) {r : Run} (h : r.going = false) :
    (Run.slot p tx r).2 = r := by
  simp [Run.slot, h]

/-- A request that is admitted changes nothing. -/
theorem Run.request_admitted {p : Params} {a : Nat} (r : Run) (h : admits p a = true) : r.request p a = r := by
  simp [Run.request, h]

theorem Run.request_of_not_going (p : Params) (a : Nat) {r : Run} (h : r.going = false) : r.request p a = r := by
  simp [Run.request, h]

/-- A request that is not admitted is where the command stays (R53). -/
theorem Run.request_stuck {p : Params} {a : Nat} {r : Run} (h : admits p a = false) (hg : r.going = true) :
    r.request p a = { r with stuckAt := some a } := by
  simp [Run.request, h, hg]

/-! ## What slots do -/

/-- What is not the transport's, `SESSION`'s or the sequencer's, and `seq.op`, is as before. -/
structure Kept (s t : State) : Prop where
  cmd : t.cmd = s.cmd
  addr : t.addr = s.addr
  result : t.result = s.result
  cmdErr : t.cmdErr = s.cmdErr
  rate : t.rate = s.rate
  mem : t.mem = s.mem
  cfg : t.cfg = s.cfg
  host : t.host = s.host
  reads : t.reads = s.reads
  op : t.seq.op = s.seq.op

theorem Kept.refl (s : State) : Kept s s := ⟨rfl, rfl, rfl, rfl, rfl, rfl, rfl, rfl, rfl, rfl⟩

theorem Kept.trans {s t u : State} (h : Kept s t) (k : Kept t u) : Kept s u :=
  ⟨k.cmd.trans h.cmd, k.addr.trans h.addr, k.result.trans h.result, k.cmdErr.trans h.cmdErr, k.rate.trans h.rate,
    k.mem.trans h.mem, k.cfg.trans h.cfg, k.host.trans h.host, k.reads.trans h.reads, k.op.trans h.op⟩

theorem Run.act_kept {f : State → State} (hf : ∀ s, Kept s (f s)) (r : Run) : Kept r.st (r.act f).st := by
  unfold Run.act
  dsimp only
  split
  · exact hf r.st
  · exact Kept.refl r.st

theorem Run.slot_kept (p : Params) (tx : Byte) (r : Run) : Kept r.st (Run.slot p tx r).2.st := by
  unfold Run.slot
  dsimp only
  split
  · rw [slot_snd]
    exact ⟨rfl, rfl, rfl, rfl, rfl, rfl, rfl, rfl, rfl, rfl⟩
  · exact Kept.refl r.st

theorem Run.readSlot_kept (p : Params) (r : Run) : Kept r.st (r.readSlot p).2.st := by
  refine (Run.slot_kept p Config.release r).trans
    (Run.act_kept (f := fun s => if (Run.slot p Config.release r).1.isNone then s.countDraw else s)
      (fun s => ?_) (Run.slot p Config.release r).2)
  cases (Run.slot p Config.release r).1.isNone <;> exact ⟨rfl, rfl, rfl, rfl, rfl, rfl, rfl, rfl, rfl, rfl⟩

/-- The draws read slots make: one for each timeout, under CONTINUE. -/
def drawsMade (pol : TimeoutPolicy) (reading : Bool) (as : List Answer) : Nat :=
  if reading = true ∧ pol = .contin then timeouts as else 0

theorem drawsMade_append (pol : TimeoutPolicy) (reading : Bool) (a b : List Answer) :
    drawsMade pol reading (a ++ b) = drawsMade pol reading a + drawsMade pol reading b := by
  unfold drawsMade
  split <;> simp [timeouts_append]

/-- From state `s`, with nothing having ended the command, the slots `txs` were made: what stands afterwards. -/
structure SlotsFrom (p : Params) (reading : Bool) (txs : List Byte) (s : State) (r' : Run) : Prop where
  calls : r'.st.calls =
    s.calls ++ slotCalls p.wiredAnd txs (usedAnswers p.timeoutPolicy (s.upcoming txs.length))
  answers : r'.st.answers = s.answers.drop (usedAnswers p.timeoutPolicy (s.upcoming txs.length)).length
  xferCount : r'.st.xferCount = s.xferCount + (usedAnswers p.timeoutPolicy (s.upcoming txs.length)).length
  drawCount : r'.st.drawCount = s.drawCount + drawsMade p.timeoutPolicy reading (s.upcoming txs.length)
  session : r'.st.session = if sawTimeout (s.upcoming txs.length) then .timeout else s.session
  aborted : r'.aborted = abortsOn p.timeoutPolicy (s.upcoming txs.length)
  stuckAt : r'.stuckAt = none
  kept : Kept s r'.st

/-- The slots `txs` were made of `r`, giving `r'`; if `r` was over, nothing was. -/
structure Slots (p : Params) (reading : Bool) (txs : List Byte) (r r' : Run) : Prop where
  idle : r.going = false → r' = r
  made : r.going = true → SlotsFrom p reading txs r.st r'

/-- A write of the sequencer that keeps `seq.op` makes no slot. -/
theorem Slots.seqWrite (p : Params) (reading : Bool) (f : State → Seq) (hf : ∀ s, (f s).op = s.seq.op) (r : Run) :
    Slots p reading [] r (r.act (fun s => s.setSeq (f s))) := by
  refine ⟨fun h => Run.act_of_not_going h, fun h => ?_⟩
  have h' := (Run.going_iff r).1 h
  rw [Run.act_of_going h]
  refine ⟨?_, ?_, ?_, ?_, ?_, ?_, h'.2, ?_⟩
  · cases p.timeoutPolicy <;> simp [slotCalls, usedAnswers, throughTimeout]
  · cases p.timeoutPolicy <;> simp [usedAnswers, throughTimeout]
  · cases p.timeoutPolicy <;> simp [usedAnswers, throughTimeout]
  · simp [drawsMade, timeouts]
  · simp
  · simp [abortsOn, h'.1]
  · exact ⟨rfl, rfl, rfl, rfl, rfl, rfl, rfl, rfl, rfl, hf r.st⟩

/-- No slot. -/
theorem Slots.none (p : Params) (reading : Bool) (r : Run) : Slots p reading [] r r := by
  have h := Slots.seqWrite p reading (fun s => s.seq) (fun _ => rfl) r
  have e : r.act (fun s => s.setSeq s.seq) = r := by
    unfold Run.act State.setSeq
    split <;> rfl
  rwa [e] at h

theorem usedAnswers_one (pol : TimeoutPolicy) (a : Answer) : usedAnswers pol [a] = [a] := by
  cases pol <;> cases a <;> rfl

/-- `WriteSlot` makes one slot (R152). -/
theorem Slots.writeSlot (p : Params) (b : Bool) (r : Run) : Slots p false [encBit b] r (r.writeSlot p b) := by
  refine ⟨fun h => Run.slot_of_not_going p _ h, fun h => ?_⟩
  have h' := (Run.going_iff r).1 h
  unfold Run.writeSlot Run.slot
  refine ⟨?_, ?_, ?_, ?_, ?_, ?_, h'.2, ?_⟩
  · simp [h, slot_snd, State.upcoming_one, usedAnswers_one, slotCalls]
  · simp [h, slot_snd, State.upcoming_one, usedAnswers_one]
  · simp [h, slot_snd, State.upcoming_one, usedAnswers_one]
  · simp [h, slot_snd, drawsMade]
  · simp [h, slot_snd, State.upcoming_one, sawTimeout, eq_comm]
  · simp [h, h'.1, State.upcoming_one, abortsOn, sawTimeout, eq_comm, Bool.and_comm]
  · exact Run.slot_kept p (encBit b) r

/-- `ReadSlot` makes one slot of 0xFF (R153). -/
theorem Slots.readSlot (p : Params) (r : Run) : Slots p true [Config.release] r (r.readSlot p).2 := by
  refine ⟨fun h => ?_, fun h => ?_⟩
  · have e := Run.slot_of_not_going p Config.release h
    unfold Run.readSlot
    simp only [e]
    exact Run.act_of_not_going h
  have h' := (Run.going_iff r).1 h
  unfold Run.readSlot Run.slot Run.act Run.going
  refine ⟨?_, ?_, ?_, ?_, ?_, ?_, ?_, ?_⟩
  · simp [h', slot_snd, State.upcoming_one, usedAnswers_one, slotCalls]
    split <;> (try split) <;> simp
  · simp [h', slot_snd, State.upcoming_one, usedAnswers_one]
    split <;> (try split) <;> simp
  · simp [h', slot_snd, State.upcoming_one, usedAnswers_one]
    split <;> (try split) <;> simp
  · cases hp : p.timeoutPolicy <;> cases hn : r.st.nextAnswer
    all_goals simp_all [slot_snd, State.upcoming_one, drawsMade, timeouts]
  · cases hn : r.st.nextAnswer <;> simp [h', slot_snd, State.upcoming_one, sawTimeout, hn]
    all_goals (split <;> rfl)
  · simp [h', State.upcoming_one, abortsOn, sawTimeout, eq_comm, Bool.and_comm]
  · simp [h']
  · exact Run.readSlot_kept p r

/-- Slots one after another. -/
theorem Slots.trans {p : Params} {reading : Bool} {txs1 txs2 : List Byte} {r r1 r2 : Run}
    (h : Slots p reading txs1 r r1) (k : Slots p reading txs2 r1 r2) : Slots p reading (txs1 ++ txs2) r r2 := by
  refine ⟨fun hr => ?_, fun hr => ?_⟩
  · have e := h.idle hr
    rw [k.idle (by rw [e]; exact hr), e]
  have m := h.made hr
  have hup : r.st.upcoming (txs1 ++ txs2).length =
      r.st.upcoming txs1.length ++
        upcomingFrom (r.st.answers.drop txs1.length) (r.st.xferCount + txs1.length) txs2.length := by
    rw [List.length_append]
    exact upcomingFrom_add _ _ _ _
  cases hab : abortsOn p.timeoutPolicy (r.st.upcoming txs1.length) with
  | true =>
    have hng : r1.going = false := by simp [Run.going, m.aborted, hab]
    have e := k.idle hng
    have hs := sawTimeout_of_abortsOn hab
    have hu : usedAnswers p.timeoutPolicy (r.st.upcoming (txs1 ++ txs2).length) =
        usedAnswers p.timeoutPolicy (r.st.upcoming txs1.length) := by
      rw [hup, usedAnswers_append, if_pos hab]
    have hpol : p.timeoutPolicy = .abort := by
      simp [abortsOn] at hab
      exact hab.1
    subst e
    refine ⟨?_, ?_, ?_, ?_, ?_, ?_, m.stuckAt, m.kept⟩
    · rw [hu, slotCalls_append_short _ _ (by
        simpa using length_usedAnswers_le p.timeoutPolicy (r.st.upcoming txs1.length))]
      exact m.calls
    · rw [hu]; exact m.answers
    · rw [hu]; exact m.xferCount
    · rw [m.drawCount]; simp [drawsMade, hpol]
    · rw [m.session, hup, sawTimeout_append, hs]; rfl
    · rw [m.aborted, hup, abortsOn_append, hab]; rfl
  | false =>
    have hg : r1.going = true := by simp [Run.going, m.aborted, hab, m.stuckAt]
    have m2 := k.made hg
    have hu1 := usedAnswers_of_not_abort hab
    have hup1 : r1.st.upcoming txs2.length =
        upcomingFrom (r.st.answers.drop txs1.length) (r.st.xferCount + txs1.length) txs2.length := by
      unfold State.upcoming
      rw [m.answers, m.xferCount, hu1]
      simp
    have hup2 : r.st.upcoming (txs1 ++ txs2).length = r.st.upcoming txs1.length ++ r1.st.upcoming txs2.length := by
      rw [hup, hup1]
    have hu : usedAnswers p.timeoutPolicy (r.st.upcoming (txs1 ++ txs2).length) =
        r.st.upcoming txs1.length ++ usedAnswers p.timeoutPolicy (r1.st.upcoming txs2.length) := by
      rw [hup2, usedAnswers_append, hab]; rfl
    refine ⟨?_, ?_, ?_, ?_, ?_, ?_, m2.stuckAt, m.kept.trans m2.kept⟩
    · rw [m2.calls, m.calls, hu1, hu, slotCalls_append _ _ _ (by simp), List.append_assoc]
    · rw [m2.answers, m.answers, hu1, hu, List.drop_drop, List.length_append]
    · rw [m2.xferCount, m.xferCount, hu1, hu, List.length_append, Nat.add_assoc]
    · rw [m2.drawCount, m.drawCount, hup2, drawsMade_append, Nat.add_assoc]
    · rw [m2.session, m.session, hup2, sawTimeout_append]
      cases sawTimeout (r.st.upcoming txs1.length) <;> cases sawTimeout (r1.st.upcoming txs2.length) <;> rfl
    · rw [m2.aborted, hup2, abortsOn_append, hab]; rfl

/-! ## A byte sent -/

theorem Run.writeSlot_acc (p : Params) (b : Bool) (r : Run) : (r.writeSlot p b).st.seq = r.st.seq := by
  unfold Run.writeSlot Run.slot
  dsimp only
  split
  · rw [slot_snd]; rfl
  · rfl

/-- The eight steps of `SendByteSlots`, any number of them: each sends its bit of `seq.acc`. -/
theorem Slots.sendSlots (p : Params) (b : Byte) (idx : List (BitVec 3)) (r : Run)
    (hacc : r.going = true → r.st.seq.acc = b) :
    Slots p false (idx.map (fun i => encBit (b.getLsbD i.toNat))) r (idx.foldl (Run.sendSlot p) r) := by
  induction idx generalizing r with
  | nil => exact Slots.none p false r
  | cons i rest ih =>
    have h1 := (Slots.seqWrite p false (fun s => { s.seq with i := i }) (fun _ => rfl) r).trans
      (Slots.writeSlot p ((r.act (fun s => s.setSeq { s.seq with i := i })).st.seq.acc.getLsbD i.toNat)
        (r.act (fun s => s.setSeq { s.seq with i := i })))
    have hst : (Run.sendSlot p r i).going = true → (Run.sendSlot p r i).st.seq.acc = b := by
      intro hg
      have hr : r.going = true := by
        by_contra hn
        have := h1.idle (by simpa using hn)
        unfold Run.sendSlot at hg
        dsimp only at hg
        rw [this] at hg
        exact hn hg
      unfold Run.sendSlot
      dsimp only
      rw [Run.writeSlot_acc, Run.act_of_going hr]
      exact hacc hr
    have h2 := h1.trans (ih (Run.sendSlot p r i) hst)
    refine ⟨h2.idle, fun hg => ?_⟩
    have e : (r.act (fun s => s.setSeq { s.seq with i := i })).st.seq.acc = b := by
      rw [Run.act_of_going hg]
      exact hacc hg
    have h3 := h2.made hg
    rw [e] at h3
    exact h3

/-- `SendByteSlots(b)` sends `encode_byte(b)` (R154). -/
theorem Slots.sendByteSlots (p : Params) (b : Byte) (r : Run) :
    Slots p false (encodeByte b) r (r.sendByteSlots p b) := by
  have h1 := Slots.seqWrite p false (fun s => { s.seq with acc := b }) (fun _ => rfl) r
  have h2 := Slots.sendSlots p b slotIndices (r.act (fun s => s.setSeq { s.seq with acc := b }))
    (fun hg => by rw [Run.act_of_going (by simpa using hg)]; rfl)
  exact h1.trans h2

/-! ## A byte received -/

theorem Run.readSlot_seq (p : Params) (r : Run) : (r.readSlot p).2.st.seq = r.st.seq := by
  unfold Run.readSlot Run.slot Run.act
  dsimp only
  split <;> split <;> (try split) <;> simp [slot_snd]

/-- The bit of a read slot (R153). -/
theorem Run.readSlot_fst (p : Params) {r : Run} (h : r.going = true) :
    [(r.readSlot p).1] = readBits (r.st.upcoming 1) r.st.drawCount := by
  rw [State.upcoming_one]
  have hs := slot_fst p Config.release r.st
  rw [observed_release] at hs
  unfold Run.readSlot Run.slot State.nextDrawBit
  cases hn : r.st.nextAnswer with
  | ok rx => simp [hs, hn, readBits]
  | timeout => simp [hs, hn, readBits, h, slot_snd]

/-- The eight steps of `RecvByteSlots`, any number of them. -/
theorem Slots.recvSlots (p : Params) (idx : List (BitVec 3)) (r : Run) :
    Slots p true (readSlots idx.length) r (idx.foldl (Run.recvSlot p) r) ∧
      (r.going = true → (idx.foldl (Run.recvSlot p) r).going = true →
        (idx.foldl (Run.recvSlot p) r).st.seq.acc =
          (idx.zip (readBits (r.st.upcoming idx.length) r.st.drawCount)).foldl
            (fun acc ib => accBit acc ib.1 ib.2) r.st.seq.acc) := by
  induction idx generalizing r with
  | nil =>
    exact ⟨Slots.none p true r, fun _ _ => by simp⟩
  | cons i rest ih =>
    let ra := r.act (fun s => s.setSeq { s.seq with i := i })
    have ha : Slots p true [] r ra := Slots.seqWrite p true (fun s => { s.seq with i := i }) (fun _ => rfl) r
    have hb : Slots p true [Config.release] ra (ra.readSlot p).2 := Slots.readSlot p ra
    have hc : Slots p true [] (ra.readSlot p).2 (Run.recvSlot p r i) :=
      Slots.seqWrite p true (fun s => { s.seq with acc := accBit s.seq.acc i (ra.readSlot p).1 }) (fun _ => rfl)
        (ra.readSlot p).2
    have h1 : Slots p true [Config.release] r (Run.recvSlot p r i) := by
      simpa using (ha.trans hb).trans hc
    obtain ⟨h2, h3⟩ := ih (Run.recvSlot p r i)
    refine ⟨?_, ?_⟩
    · have h4 := h1.trans h2
      have e : [Config.release] ++ readSlots rest.length = readSlots (i :: rest).length := by
        simp [readSlots, List.replicate_succ]
      rwa [e] at h4
    · intro hg hend
      have hmid : (Run.recvSlot p r i).going = true := by
        by_contra hn
        have := h2.idle (by simpa using hn)
        rw [List.foldl_cons, this] at hend
        exact hn hend
      have hm := h1.made hg
      have hnoab : abortsOn p.timeoutPolicy (r.st.upcoming 1) = false := by
        have := ((Run.going_iff _).1 hmid).1
        rw [hm.aborted] at this
        exact this
      have hrg : (ra.readSlot p).2.going = true := by
        have : (Run.recvSlot p r i).going = (ra.readSlot p).2.going := rfl
        rw [← this]; exact hmid
      have hag : ra.going = true := by simpa [ra] using hg
      have hbit := Run.readSlot_fst p hag
      have hacc : (Run.recvSlot p r i).st.seq.acc = accBit r.st.seq.acc i (ra.readSlot p).1 := by
        have : Run.recvSlot p r i =
            (ra.readSlot p).2.act (fun s => s.setSeq { s.seq with acc := accBit s.seq.acc i (ra.readSlot p).1 }) :=
          rfl
        rw [this, Run.act_of_going hrg]
        have e := Run.readSlot_seq p ra
        have e2 : ra.st.seq.acc = r.st.seq.acc := by
          simp only [ra]
          rw [Run.act_of_going hg]; rfl
        simp [e, e2]
      have hup : ra.st.upcoming 1 = r.st.upcoming 1 ∧ ra.st.drawCount = r.st.drawCount := by
        simp only [ra]
        rw [Run.act_of_going hg]
        exact ⟨rfl, rfl⟩
      rw [hup.1, hup.2] at hbit
      have hsplit : r.st.upcoming (i :: rest).length =
          r.st.upcoming 1 ++ (Run.recvSlot p r i).st.upcoming rest.length := by
        have e : (i :: rest).length = 1 + rest.length := by simp [Nat.add_comm]
        rw [e]
        unfold State.upcoming
        have ean := hm.answers
        have exc := hm.xferCount
        simp only [List.length_singleton] at ean exc
        rw [usedAnswers_of_not_abort hnoab] at ean exc
        simp only [State.length_upcoming] at ean exc
        rw [ean, exc]
        exact upcomingFrom_add _ _ _ _
      have hdraw : (Run.recvSlot p r i).st.drawCount = r.st.drawCount + timeouts (r.st.upcoming 1) := by
        rw [hm.drawCount]
        simp only [List.length_singleton, drawsMade]
        cases hp : p.timeoutPolicy with
        | contin => simp
        | abort =>
          have : sawTimeout (r.st.upcoming 1) = false := by simpa [abortsOn, hp] using hnoab
          rw [State.upcoming_one] at this ⊢
          cases hn : r.st.nextAnswer <;> simp_all [sawTimeout, timeouts]
      rw [List.foldl_cons, h3 hmid (by simpa using hend), hacc, hsplit, readBits_append, ← hbit, hdraw]
      rfl

/-- `RecvByteSlots()` makes eight read slots; if it was not ended it leaves their byte in `seq.acc` (R154). -/
theorem Slots.recvByteSlots (p : Params) (r : Run) :
    Slots p true (readSlots 8) r (r.recvByteSlots p) ∧
      (r.going = true → (r.recvByteSlots p).going = true →
        (r.recvByteSlots p).st.seq.acc = byteOfBits (readBits (r.st.upcoming 8) r.st.drawCount)) := by
  have h1 := Slots.seqWrite p true (fun s => { s.seq with acc := 0x00#8 }) (fun _ => rfl) r
  obtain ⟨h2, h3⟩ := Slots.recvSlots p slotIndices (r.act (fun s => s.setSeq { s.seq with acc := 0x00#8 }))
  refine ⟨h1.trans h2, fun hg hend => ?_⟩
  have e : (r.act (fun s => s.setSeq { s.seq with acc := 0x00#8 })).st = r.st.setSeq { r.st.seq with acc := 0x00#8 } := by
    rw [Run.act_of_going hg]
  have h4 := h3 (by simpa using hg) hend
  rw [e] at h4
  exact h4

end Sys2Proof.Machine
end

