-- ==== Sys2Proof/Laws/Spans.lean ====
section
/-! SUPPORT. What the buffer loops do: `sendSpan` (SEND_BYTES, SELECT_DEVICE), `recvSpan` (RECV_BYTES) and `crcSpan`
(CRC8), on admitted bytes and at the first byte that is not admitted. -/

namespace Sys2Proof.Machine

theorem Slots.mem {p : Params} {reading : Bool} {txs : List Byte} {r r' : Run} (h : Slots p reading txs r r') :
    r'.st.mem = r.st.mem := by
  cases hg : r.going with
  | false => rw [h.idle hg]
  | true => exact (h.made hg).kept.mem

/-! ## Sending -/

theorem Run.sendSpan_of_not_going (p : Params) (base n j : Nat) {r : Run} (h : r.going = false) :
    Run.sendSpan p base n j r = r := by
  induction n generalizing j with
  | zero => rfl
  | succ n ih =>
    unfold Run.sendSpan Run.memRead
    dsimp only
    rw [Run.act_of_not_going h, Run.request_of_not_going _ _ h, (Slots.sendByteSlots p _ r).idle h]
    exact ih (j + 1)

theorem Run.sendSpan_add (p : Params) (base m n j : Nat) (r : Run) :
    Run.sendSpan p base (m + n) j r = Run.sendSpan p base n (j + m) (Run.sendSpan p base m j r) := by
  induction m generalizing j r with
  | zero => simp [Run.sendSpan]
  | succ m ih =>
    have e : m + 1 + n = (m + n) + 1 := by omega
    have e' : j + (m + 1) = j + 1 + m := by omega
    rw [e, e', Run.sendSpan, ih]
    rfl

/-- On admitted bytes the loop sends them, ascending (R51, R170). -/
theorem Slots.sendSpan (p : Params) (base n j : Nat) (r : Run)
    (h : ∀ k < n, admits p (effAddr base (j + k)) = true) :
    Slots p false (byteSlots ((List.range n).map (fun k => r.st.mem.read (effAddr base (j + k))))) r
      (Run.sendSpan p base n j r) := by
  induction n generalizing j r with
  | zero => exact Slots.none p false r
  | succ n ih =>
    let ra := r.act (fun s => s.setSeq { s.seq with j := BitVec.ofNat 16 j })
    have ha : Slots p false [] r ra := Slots.seqWrite p false (fun s => { s.seq with j := BitVec.ofNat 16 j })
      (fun _ => rfl) r
    have hb := ha.trans (Slots.sendByteSlots p (ra.st.mem.read (effAddr base j)) ra)
    have hreq : ra.request p (effAddr base j) = ra := Run.request_admitted ra (by simpa using h 0 (by omega))
    have hc := hb.trans (ih (j + 1) (ra.sendByteSlots p (ra.st.mem.read (effAddr base j)))
      (fun k hk => by simpa [Nat.add_assoc, Nat.add_comm 1] using h (k + 1) (by omega)))
    have hm : (ra.sendByteSlots p (ra.st.mem.read (effAddr base j))).st.mem = r.st.mem := hb.mem
    rw [hm, ha.mem] at hc
    have hrun : Run.sendSpan p base (n + 1) j r =
        Run.sendSpan p base n (j + 1) (ra.sendByteSlots p (r.st.mem.read (effAddr base j))) := by
      rw [Run.sendSpan]
      unfold Run.memRead
      simp only
      rw [show (r.act (fun s => s.setSeq { s.seq with j := BitVec.ofNat 16 j })) = ra from rfl, hreq, ha.mem]
    rw [hrun]
    have hl : byteSlots ((List.range (n + 1)).map (fun k => r.st.mem.read (effAddr base (j + k)))) =
        [] ++ encodeByte (r.st.mem.read (effAddr base j)) ++
          byteSlots ((List.range n).map (fun k => r.st.mem.read (effAddr base (j + 1 + k)))) := by
      rw [List.range_succ_eq_map]
      simp [byteSlots, List.flatMap_map, Function.comp_def, Nat.add_assoc, Nat.add_comm 1]
    rw [hl]
    exact hc

/-- At a byte that is not admitted the loop stays (R53, R170). -/
theorem Run.sendSpan_stuck (p : Params) (base n j : Nat) {r : Run} (h : admits p (effAddr base j) = false)
    (hg : r.going = true) :
    Run.sendSpan p base (n + 1) j r =
      { st := r.st.setSeq { r.st.seq with j := BitVec.ofNat 16 j }
        aborted := r.aborted
        stuckAt := some (effAddr base j) } := by
  rw [Run.sendSpan]
  unfold Run.memRead
  dsimp only
  rw [Run.request_stuck h (by simpa using hg), Run.act_of_going hg]
  have hn : ∀ (q : Seq), Run.going { st := r.st.setSeq q, aborted := r.aborted, stuckAt := some (effAddr base j) } =
      false := by
    intro q
    simp [Run.going]
  rw [(Slots.sendByteSlots p _ _).idle (hn _)]
  exact Run.sendSpan_of_not_going p base n (j + 1) (hn _)

/-! ## Receiving -/

/-- The memory after the bytes `bs` are stored from index `j` on. -/
def storeFrom (base : Nat) : Nat → List Byte → Memory → Memory
  | _, [], m => m
  | j, b :: bs, m => storeFrom base (j + 1) bs (m.write (effAddr base j) b)

theorem storeFrom_other (base j : Nat) (bs : List Byte) (m : Memory) {a : Nat}
    (h : ∀ k < bs.length, a ≠ effAddr base (j + k)) : (storeFrom base j bs m).read a = m.read a := by
  induction bs generalizing j m with
  | nil => rfl
  | cons b bs ih =>
    rw [storeFrom, ih (j + 1) (m.write (effAddr base j) b)
      (fun k hk => by simpa [Nat.add_assoc, Nat.add_comm 1] using h (k + 1) (by simpa using hk))]
    exact Memory.read_write_other m b (by simpa using h 0 (by simp))

theorem storeFrom_same (base j : Nat) (bs : List Byte) {m : Memory} (hm : m.wf = true) {k : Nat} (h : k < bs.length) :
    (storeFrom base j bs m).read (effAddr base (j + k)) = bs[k] := by
  induction bs generalizing j m k with
  | nil => simp at h
  | cons b bs ih =>
    rw [storeFrom]
    cases k with
    | zero =>
      rw [storeFrom_other _ _ _ _ (fun i _ => by unfold effAddr; omega)]
      exact Memory.read_write_same hm _ _
    | succ k =>
      have := ih (j + 1) (Memory.write_wf hm (effAddr base j) b) (k := k) (by simpa using h)
      rw [show j + (k + 1) = j + 1 + k by omega, this]
      rfl

/-- `r`, with another memory. -/
def Run.withMem (m : Memory) (r : Run) : Run := { r with st := r.st.setMem m }

theorem SlotsFrom.ofSetMem {p : Params} {reading : Bool} {txs : List Byte} {s : State} {m : Memory} {r' : Run}
    (h : SlotsFrom p reading txs (s.setMem m) r') : SlotsFrom p reading txs s (r'.withMem s.mem) :=
  ⟨h.calls, h.answers, h.xferCount, h.drawCount, h.session, h.aborted, h.stuckAt,
    ⟨h.kept.cmd, h.kept.addr, h.kept.result, h.kept.cmdErr, h.kept.rate, rfl, h.kept.cfg, h.kept.host, h.kept.reads,
      h.kept.op⟩⟩

theorem Run.recvSpan_of_not_going (p : Params) (base n j : Nat) {r : Run} (h : r.going = false) :
    Run.recvSpan p base n j r = r := by
  induction n generalizing j with
  | zero => rfl
  | succ n ih =>
    unfold Run.recvSpan Run.memWrite
    dsimp only
    rw [Run.act_of_not_going h, (Slots.recvByteSlots p r).1.idle h, Run.request_of_not_going _ _ h,
      Run.act_of_not_going h]
    exact ih (j + 1)

theorem Run.recvSpan_add (p : Params) (base m n j : Nat) (r : Run) :
    Run.recvSpan p base (m + n) j r = Run.recvSpan p base n (j + m) (Run.recvSpan p base m j r) := by
  induction m generalizing j r with
  | zero => simp [Run.recvSpan]
  | succ m ih =>
    have e : m + 1 + n = (m + n) + 1 := by omega
    have e' : j + (m + 1) = j + 1 + m := by omega
    rw [e, e', Run.recvSpan, ih]
    rfl

theorem upcoming_split (s : State) (m n : Nat) :
    s.upcoming (m + n) = s.upcoming m ++ upcomingFrom (s.answers.drop m) (s.xferCount + m) n :=
  upcomingFrom_add _ _ _ _

theorem timeouts_eq_drawsMade {pol : TimeoutPolicy} {as : List Answer} (h : abortsOn pol as = false) :
    drawsMade pol true as = timeouts as := by
  cases pol with
  | contin => simp [drawsMade]
  | abort =>
    have hs : sawTimeout as = false := by simpa [abortsOn] using h
    have : timeouts as = 0 := by
      unfold timeouts
      rw [List.countP_eq_zero]
      intro a ha
      simp [sawTimeout] at hs
      simp
      rintro rfl
      exact hs ha
    simp [drawsMade, this]

theorem memWrite_admitted {p : Params} {a : Nat} {v : Byte} {r : Run} (h : admits p a = true) (hg : r.going = true) :
    r.memWrite p a v = { r with st := r.st.setMem (r.st.mem.write a v) } := by
  unfold Run.memWrite
  rw [Run.request_admitted r h, Run.act_of_going hg]

/-- On admitted bytes the loop makes eight read slots a byte and stores the whole bytes received (R180). -/
theorem Run.recvSpan_made (p : Params) (base n j : Nat) (r : Run) (hg : r.going = true)
    (h : ∀ k < n, admits p (effAddr base (j + k)) = true) :
    SlotsFrom p true (readSlots (8 * n)) r.st ((Run.recvSpan p base n j r).withMem r.st.mem) ∧
      (Run.recvSpan p base n j r).st.mem =
        storeFrom base j (bytesReceived p.timeoutPolicy n (r.st.upcoming (8 * n)) r.st.drawCount) r.st.mem := by
  induction n generalizing j r with
  | zero =>
    exact ⟨(Slots.none p true r).made hg, rfl⟩
  | succ n ih =>
    let ra := r.act (fun s => s.setSeq { s.seq with j := BitVec.ofNat 16 j })
    let r1 := ra.recvByteSlots p
    have ha : Slots p true [] r ra := Slots.seqWrite p true (fun s => { s.seq with j := BitVec.ofNat 16 j })
      (fun _ => rfl) r
    have h1 : Slots p true (readSlots 8) r r1 := ha.trans (Slots.recvByteSlots p ra).1
    have m1 := h1.made hg
    have hadm : admits p (effAddr base j) = true := by simpa using h 0 (by omega)
    have hrun : Run.recvSpan p base (n + 1) j r =
        Run.recvSpan p base n (j + 1) (r1.memWrite p (effAddr base j) r1.st.seq.acc) := rfl
    have h8 : 8 * (n + 1) = 8 + 8 * n := by omega
    have hup := upcoming_split r.st 8 (8 * n)
    have htake : (r.st.upcoming (8 * (n + 1))).take 8 = r.st.upcoming 8 := by
      rw [h8, hup]
      exact List.take_left' (by simp)
    have hdrop : (r.st.upcoming (8 * (n + 1))).drop 8 =
        upcomingFrom (r.st.answers.drop 8) (r.st.xferCount + 8) (8 * n) := by
      rw [h8, hup]
      exact List.drop_left' (by simp)
    cases hab : abortsOn p.timeoutPolicy (r.st.upcoming 8) with
    | true =>
      have hn1 : r1.going = false := by
        have := m1.aborted
        simp [hab] at this
        simp [Run.going, this]
      have hw : r1.memWrite p (effAddr base j) r1.st.seq.acc = r1 := by
        unfold Run.memWrite
        rw [Run.request_of_not_going _ _ hn1, Run.act_of_not_going hn1]
      have hres : Run.recvSpan p base (n + 1) j r = r1 := by
        rw [hrun, hw, Run.recvSpan_of_not_going p base n (j + 1) hn1]
      have hidle : Slots p true (readSlots (8 * n)) r1 r1 :=
        ⟨fun _ => rfl, fun hx => absurd hx (by simp [hn1])⟩
      have hall := (h1.trans hidle).made hg
      rw [hres]
      refine ⟨?_, ?_⟩
      · have e : r1.withMem r.st.mem = r1 := by
          unfold Run.withMem State.setMem
          rw [← h1.mem]
        rw [e, h8, readSlots_add]
        exact hall
      · rw [bytesReceived, htake, hab]
        exact h1.mem
    | false =>
      have hg1 : r1.going = true := by
        rw [Run.going_iff, m1.aborted, m1.stuckAt]
        exact ⟨hab, rfl⟩
      have hacc : r1.st.seq.acc = byteOfBits (readBits (r.st.upcoming 8) r.st.drawCount) := by
        have := (Slots.recvByteSlots p ra).2 (by simpa [ra] using hg) hg1
        have e : ra.st.upcoming 8 = r.st.upcoming 8 ∧ ra.st.drawCount = r.st.drawCount := by
          simp only [ra]
          rw [Run.act_of_going hg]
          exact ⟨rfl, rfl⟩
        rw [e.1, e.2] at this
        exact this
      have hw := memWrite_admitted (v := r1.st.seq.acc) hadm hg1
      let r2 := r1.memWrite p (effAddr base j) r1.st.seq.acc
      have hr2 : r2 = { r1 with st := r1.st.setMem (r1.st.mem.write (effAddr base j) r1.st.seq.acc) } := hw
      have hg2 : r2.going = true := by rw [hr2]; exact hg1
      obtain ⟨k1, k2⟩ := ih (j + 1) r2 hg2
        (fun k hk => by simpa [Nat.add_assoc, Nat.add_comm 1] using h (k + 1) (by omega))
      have hused := usedAnswers_of_not_abort hab
      have hup1 : r1.st.upcoming (8 * n) = upcomingFrom (r.st.answers.drop 8) (r.st.xferCount + 8) (8 * n) := by
        unfold State.upcoming
        rw [m1.answers, m1.xferCount, length_readSlots, hused]
        simp
      have hst2 : r2.st = r1.st.setMem (r1.st.mem.write (effAddr base j) r1.st.seq.acc) := by rw [hr2]
      have hup2 : r2.st.upcoming (8 * n) = r1.st.upcoming (8 * n) := by rw [hst2]; rfl
      have hd2 : r2.st.drawCount = r.st.drawCount + timeouts (r.st.upcoming 8) := by
        rw [hst2, ← timeouts_eq_drawsMade hab]
        exact m1.drawCount
      rw [hrun]
      refine ⟨?_, ?_⟩
      · rw [hst2] at k1
        have k3 := k1.ofSetMem
        have e : ((Run.recvSpan p base n (j + 1) r2).withMem
            (r1.st.setMem (r1.st.mem.write (effAddr base j) r1.st.seq.acc)).mem).withMem r1.st.mem =
            (Run.recvSpan p base n (j + 1) r2).withMem r.st.mem := by
          rw [h1.mem]; rfl
        rw [e] at k3
        have k4 := (h1.trans (r2 := (Run.recvSpan p base n (j + 1) r2).withMem r.st.mem)
          ⟨fun hx => absurd hg1 (by simp [hx]), fun _ => k3⟩).made hg
        rw [h8, readSlots_add]
        exact k4
      · rw [k2, hup2, hup1, hd2, bytesReceived, htake, hab, hdrop]
        simp only [Bool.false_eq_true, if_false]
        rw [storeFrom, hst2, ← hacc]
        simp only [State.setMem_mem]
        rw [h1.mem]

/-- At a byte that is not admitted the loop stays, after that byte's slots (R53, R180). -/
theorem Run.recvSpan_stuck (p : Params) (base n j : Nat) {r : Run} (h : admits p (effAddr base j) = false)
    (hg : ((r.act (fun s => s.setSeq { s.seq with j := BitVec.ofNat 16 j })).recvByteSlots p).going = true) :
    Run.recvSpan p base (n + 1) j r =
      { (r.act (fun s => s.setSeq { s.seq with j := BitVec.ofNat 16 j })).recvByteSlots p with
        stuckAt := some (effAddr base j) } := by
  rw [Run.recvSpan]
  unfold Run.memWrite
  dsimp only
  rw [Run.request_stuck h hg]
  have hn : ∀ (x : Run), Run.going { x with stuckAt := some (effAddr base j) } = false := by
    intro x
    simp [Run.going]
  rw [Run.act_of_not_going (hn _)]
  exact Run.recvSpan_of_not_going p base n (j + 1) (hn _)

/-! ## Checksumming -/

theorem Run.crcSpan_of_not_going (p : Params) (base n j : Nat) {r : Run} (h : r.going = false) :
    Run.crcSpan p base n j r = r := by
  induction n generalizing j with
  | zero => rfl
  | succ n ih =>
    unfold Run.crcSpan Run.memRead
    dsimp only
    rw [Run.act_of_not_going h, Run.request_of_not_going _ _ h, Run.act_of_not_going h]
    exact ih (j + 1)

/-- On admitted bytes the loop leaves their checksum, from the accumulator on, in `seq.crc` (R135). -/
theorem Run.crcSpan_made (p : Params) (base n j : Nat) (r : Run) (hg : r.going = true)
    (h : ∀ k < n, admits p (effAddr base (j + k)) = true) :
    ∃ q : Seq, q.op = r.st.seq.op ∧
      q.crc = ((List.range n).map (fun k => r.st.mem.read (effAddr base (j + k)))).foldl crc8Step r.st.seq.crc ∧
      Run.crcSpan p base n j r = { r with st := r.st.setSeq q } := by
  induction n generalizing j r with
  | zero => exact ⟨r.st.seq, rfl, rfl, rfl⟩
  | succ n ih =>
    let q1 : Seq := { r.st.seq with j := BitVec.ofNat 16 j, crc := crc8Step r.st.seq.crc (r.st.mem.read (effAddr base j)) }
    let r1 : Run := { r with st := r.st.setSeq q1 }
    have hg1 : r1.going = true := hg
    have hrun : Run.crcSpan p base (n + 1) j r = Run.crcSpan p base n (j + 1) r1 := by
      rw [Run.crcSpan]
      unfold Run.memRead
      dsimp only
      rw [Run.act_of_going hg, Run.request_admitted _ (by simpa using h 0 (by omega))]
      exact congrArg (Run.crcSpan p base n (j + 1)) (Run.act_of_going hg)
    obtain ⟨q, hq1, hq2, hq3⟩ := ih (j + 1) r1 hg1
      (fun k hk => by simpa [Nat.add_assoc, Nat.add_comm 1] using h (k + 1) (by omega))
    refine ⟨q, hq1, ?_, ?_⟩
    · rw [hq2, List.range_succ_eq_map]
      simp [r1, q1, Function.comp_def, Nat.add_assoc, Nat.add_comm 1]
    · rw [hrun, hq3]; rfl

theorem Run.crcSpan_add (p : Params) (base m n j : Nat) (r : Run) :
    Run.crcSpan p base (m + n) j r = Run.crcSpan p base n (j + m) (Run.crcSpan p base m j r) := by
  induction m generalizing j r with
  | zero => simp [Run.crcSpan]
  | succ m ih =>
    have e : m + 1 + n = (m + n) + 1 := by omega
    have e' : j + (m + 1) = j + 1 + m := by omega
    rw [e, e', Run.crcSpan, ih]
    rfl

/-- At a byte that is not admitted the loop stays (R53, R135). -/
theorem Run.crcSpan_stuck (p : Params) (base n j : Nat) {r : Run} (h : admits p (effAddr base j) = false)
    (hg : r.going = true) :
    Run.crcSpan p base (n + 1) j r =
      { st := r.st.setSeq { r.st.seq with j := BitVec.ofNat 16 j }
        aborted := r.aborted
        stuckAt := some (effAddr base j) } := by
  rw [Run.crcSpan]
  unfold Run.memRead
  dsimp only
  rw [Run.request_stuck h (by simpa using hg), Run.act_of_going hg]
  have hn : ∀ (q : Seq), Run.going { st := r.st.setSeq q, aborted := r.aborted, stuckAt := some (effAddr base j) } =
      false := by
    intro q
    simp [Run.going]
  rw [Run.act_of_not_going (hn _)]
  exact Run.crcSpan_of_not_going p base n (j + 1) (hn _)

end Sys2Proof.Machine
end

