-- ==== Sys2Proof/Laws/Commands.lean ====
section
/-! SUPPORT. From what a run's slots did to what the command left: the terms of Safety.lean for a command under way. -/

namespace Sys2Proof.Machine

/-- `ADDR_W` is 32, so all of `ADDR` is the address (R22). -/
theorem State.base_eq (s : State) : s.base = s.addr.toNat := by
  unfold State.base Config.addrW
  exact Nat.mod_eq_of_lt s.addr.isLt

theorem admitsSpan_iff (p : Params) (base n : Nat) :
    admitsSpan p base n = true ↔ ∀ k < n, admits p (effAddr base k) = true := by
  simp [admitsSpan]

theorem buffersAdmitted_iff (i : Instr) (s : State) :
    buffersAdmitted i s = true ↔ ∀ k < bufferBytes i, admits s.cfg (s.addr.toNat + k) = true := by
  unfold buffersAdmitted
  rw [admitsSpan_iff, State.base_eq]
  rfl

theorem Run.finish_next {r : Run} (h : r.stuckAt = none) : r.finish = .next r.st.complete := by
  simp [Run.finish, h]

theorem Run.finish_stuck {r : Run} {a : Nat} (h : r.stuckAt = some a) : r.finish = .fault (.bufferStuck a r.st) := by
  simp [Run.finish, h]

/-- What a run of slots that a command started with leaves of the state the command was given. -/
structure Served (reading : Bool) (txs : List Byte) (s t : State) : Prop where
  slots : MadeSlots txs s t
  cmd : t.cmd = s.cmd
  addr : t.addr = s.addr
  result : t.result = s.result
  cfg : t.cfg = s.cfg
  host : t.host = s.host
  reads : t.reads = s.reads
  mem : t.mem = s.mem
  cmdErr : t.cmdErr = false
  drawCount : t.drawCount = s.drawCount + drawsMade s.cfg.timeoutPolicy reading (s.upcoming txs.length)

theorem SlotsFrom.served {reading : Bool} {txs : List Byte} {s : State} {opc : Byte} {r : Run}
    (h : SlotsFrom s.cfg reading txs (s.begin opc) r) : Served reading txs s r.st :=
  ⟨⟨h.calls, h.answers, h.xferCount, h.session, h.kept.rate⟩, h.kept.cmd, h.kept.addr, h.kept.result, h.kept.cfg,
    h.kept.host, h.kept.reads, h.kept.mem, h.kept.cmdErr, h.drawCount⟩

theorem Served.completed {reading : Bool} {txs : List Byte} {s t : State} (h : Served reading txs s t) :
    Completed s t.complete :=
  ⟨h.cmd, h.addr, h.cfg, h.host, h.reads, h.cmdErr, rfl⟩

theorem Served.sameBytes {reading : Bool} {txs : List Byte} {s t : State} (h : Served reading txs s t) :
    SameBytes s t := fun a => by rw [h.mem]

theorem Served.noDraws {txs : List Byte} {s t : State} (h : Served false txs s t) : t.drawCount = s.drawCount := by
  simpa [drawsMade] using h.drawCount

/-- Is a command that made these slots still under way? -/
theorem SlotsFrom.going {p : Params} {reading : Bool} {txs : List Byte} {s : State} {r : Run}
    (h : SlotsFrom p reading txs s r) : r.going = !abortsOn p.timeoutPolicy (s.upcoming txs.length) := by
  simp [Run.going, h.stuckAt, h.aborted]

/-- The sending loop over a buffer whose first byte not admitted is byte `k` (R53, R226 item 3). -/
theorem Run.sendSpan_first (p : Params) (base : Nat) {n k : Nat} (r : Run) (hk : k < n)
    (hn : admits p (effAddr base k) = false) :
    Run.sendSpan p base n 0 r =
      if (Run.sendSpan p base k 0 r).going then
        { st := (Run.sendSpan p base k 0 r).st.setSeq
            { (Run.sendSpan p base k 0 r).st.seq with j := BitVec.ofNat 16 k }
          aborted := (Run.sendSpan p base k 0 r).aborted
          stuckAt := some (effAddr base k) }
      else Run.sendSpan p base k 0 r := by
  obtain ⟨m, rfl⟩ : ∃ m, n = k + (m + 1) := ⟨n - k - 1, by omega⟩
  rw [Run.sendSpan_add]
  split
  · rename_i hg
    rw [Run.sendSpan_stuck p base m (0 + k) (by simpa using hn) hg]
    simp
  · rename_i hg
    exact Run.sendSpan_of_not_going p base (m + 1) (0 + k) (by simpa using hg)

/-- The slots of `n` admitted buffer bytes, after those of `r0` (SEND_BYTES, SELECT_DEVICE). -/
theorem SlotsFrom.sendSpan {s : State} {opc : Byte} {txs0 : List Byte} {r0 : Run} {n : Nat}
    (e0 : Slots s.cfg false txs0 (Run.start (s.begin opc)) r0)
    (h : ∀ j < n, admits s.cfg (s.addr.toNat + j) = true) :
    SlotsFrom s.cfg false (txs0 ++ byteSlots ((List.range n).map (fun j => s.mem.read (s.addr.toNat + j))))
      (s.begin opc) (Run.sendSpan s.cfg s.base n 0 r0) := by
  have e := (e0.trans (Slots.sendSpan s.cfg s.base n 0 r0 (by simpa [effAddr, State.base_eq] using h))).made rfl
  rw [e0.mem] at e
  simpa [effAddr, State.base_eq] using e

/-- The end of a sending loop over a buffer whose first byte not admitted is byte `k`: over if ABORT ended it before,
else stuck there. -/
theorem sendSpan_unadmitted {s : State} {opc : Byte} {txs0 : List Byte} {r0 : Run} {n k : Nat}
    (e0 : Slots s.cfg false txs0 (Run.start (s.begin opc)) r0) (hk : k < n)
    (h : ∀ j < k, admits s.cfg (s.addr.toNat + j) = true) (hn : admits s.cfg (s.addr.toNat + k) = false) :
    ∃ t, (Run.sendSpan s.cfg s.base n 0 r0).finish =
        (if abortsOn s.cfg.timeoutPolicy (s.upcoming (txs0.length + 8 * k)) then .next t
          else .fault (.bufferStuck (s.addr.toNat + k) t)) ∧
      Served false (txs0 ++ byteSlots ((List.range k).map (fun j => s.mem.read (s.addr.toNat + j)))) s t ∧
      (abortsOn s.cfg.timeoutPolicy (s.upcoming (txs0.length + 8 * k)) = true → Completed s t) := by
  have e := SlotsFrom.sendSpan e0 h
  have hs := e.served
  have hl : (txs0 ++ byteSlots ((List.range k).map (fun j => s.mem.read (s.addr.toNat + j)))).length =
      txs0.length + 8 * k := by simp
  have hg := e.going
  rw [hl, show (s.begin opc).upcoming (txs0.length + 8 * k) = s.upcoming (txs0.length + 8 * k) from rfl] at hg
  rw [Run.sendSpan_first s.cfg s.base r0 hk (by simpa [effAddr, State.base_eq] using hn), hg]
  cases abortsOn s.cfg.timeoutPolicy (s.upcoming (txs0.length + 8 * k)) with
  | true =>
    exact ⟨(Run.sendSpan s.cfg s.base k 0 r0).st.complete, Run.finish_next e.stuckAt, ⟨hs.slots, hs.cmd, hs.addr,
      hs.result, hs.cfg, hs.host, hs.reads, hs.mem, hs.cmdErr, hs.drawCount⟩, fun _ => hs.completed⟩
  | false =>
    refine ⟨(Run.sendSpan s.cfg s.base k 0 r0).st.setSeq
      { (Run.sendSpan s.cfg s.base k 0 r0).st.seq with j := BitVec.ofNat 16 k }, ?_, ⟨hs.slots, hs.cmd, hs.addr,
      hs.result, hs.cfg, hs.host, hs.reads, hs.mem, hs.cmdErr, hs.drawCount⟩, fun hx => absurd hx (by simp)⟩
    simp [Run.finish, effAddr, State.base_eq]

theorem Served.ofSetMem {reading : Bool} {txs : List Byte} {s t : State} {m : Memory}
    (h : Served reading txs s (t.setMem m)) (hop : t.seq.op = none) : Completed s t :=
  ⟨h.cmd, h.addr, h.cfg, h.host, h.reads, h.cmdErr, hop⟩

theorem length_bytesReceived_le (pol : TimeoutPolicy) (n : Nat) (as : List Answer) (d : Nat) :
    (bytesReceived pol n as d).length ≤ n := by
  induction n generalizing as d with
  | zero => exact le_rfl
  | succ n ih =>
    rw [bytesReceived]
    split
    · simp
    · simpa using ih (as.drop 8) (d + timeouts (as.take 8))

/-- How many whole bytes a list of answers brings (R151, R180). -/
theorem length_bytesReceived (pol : TimeoutPolicy) {n : Nat} {as : List Answer} (d : Nat) (h : as.length = 8 * n) :
    (bytesReceived pol n as d).length = if abortsOn pol as then ((throughTimeout as).length - 1) / 8 else n := by
  induction n generalizing as d with
  | zero =>
    have : as = [] := List.length_eq_zero_iff.1 (by simpa using h)
    simp [this, bytesReceived, abortsOn]
  | succ n ih =>
    have hab := abortsOn_append pol (as.take 8) (as.drop 8)
    have ht := throughTimeout_append (as.take 8) (as.drop 8)
    rw [List.take_append_drop] at hab ht
    have h8 : (as.take 8).length = 8 := by simp; omega
    rw [bytesReceived, hab, ht]
    cases h1 : abortsOn pol (as.take 8) with
    | true =>
      have hs := sawTimeout_of_abortsOn h1
      have hle := length_throughTimeout_le (as.take 8)
      have hge := throughTimeout_ne_nil hs
      simp only [hs, if_true, Bool.true_or, List.length_nil]
      omega
    | false =>
      have := ih (as := as.drop 8) (d + timeouts (as.take 8)) (by simp; omega)
      simp only [Bool.false_eq_true, if_false, List.length_cons, this, Bool.false_or]
      cases h2 : abortsOn pol (as.drop 8) with
      | false => simp
      | true =>
        have hpol : pol = .abort := by simp [abortsOn] at h2; exact h2.1
        have hs : sawTimeout (as.take 8) = false := by simpa [abortsOn, hpol] using h1
        have hge := throughTimeout_ne_nil (sawTimeout_of_abortsOn h2)
        simp only [hs, if_true, Bool.false_eq_true, if_false, List.length_append, h8]
        omega

/-- Once ABORT ends it in byte `k` or before, RECV_BYTES receives no more than `k` bytes would bring. -/
theorem bytesReceived_of_abortsOn (pol : TimeoutPolicy) {n k : Nat} {as : List Answer} (d : Nat) (hk : k < n)
    (h : abortsOn pol (as.take (8 * (k + 1))) = true) :
    bytesReceived pol n as d = bytesReceived pol k (as.take (8 * k)) d := by
  induction k generalizing n as d with
  | zero =>
    obtain ⟨m, rfl⟩ : ∃ m, n = m + 1 := ⟨n - 1, by omega⟩
    simp only [Nat.zero_add, Nat.mul_one] at h
    simp [bytesReceived, h]
  | succ k ih =>
    obtain ⟨m, rfl⟩ : ∃ m, n = m + 1 := ⟨n - 1, by omega⟩
    have e : (as.take (8 * (k + 1))).take 8 = as.take 8 := by rw [List.take_take, Nat.min_eq_left (by omega)]
    have e2 : (as.take (8 * (k + 1))).drop 8 = (as.drop 8).take (8 * k) := by
      rw [List.drop_take]; congr 1
    simp only [bytesReceived, e, e2]
    cases h1 : abortsOn pol (as.take 8) with
    | true => rfl
    | false =>
      have hs : as.take (8 * (k + 1 + 1)) = as.take 8 ++ (as.drop 8).take (8 * (k + 1)) := by
        rw [← List.take_add]; congr 1; omega
      rw [hs, abortsOn_append, h1, Bool.false_or] at h
      simp only [Bool.false_eq_true, if_false]
      rw [ih (d + timeouts (as.take 8)) (by omega) h]

/-- RECV_BYTES over a buffer that is admitted (R180). -/
theorem recvSpan_admitted {s : State} {opc : Byte} {n : Nat} (h : ∀ j < n, admits s.cfg (s.addr.toNat + j) = true) :
    ∃ t, (Run.recvSpan s.cfg s.base n 0 (Run.start (s.begin opc))).finish = .next t ∧
      Served true (readSlots (8 * n)) s (t.setMem s.mem) ∧ Completed s t ∧
      t.mem = storeFrom s.addr.toNat 0
        (bytesReceived s.cfg.timeoutPolicy n (s.upcoming (8 * n)) s.drawCount) s.mem := by
  obtain ⟨e, em⟩ := Run.recvSpan_made s.cfg s.base n 0 (Run.start (s.begin opc)) rfl
    (by simpa [effAddr, State.base_eq] using h)
  have hs := e.served
  rw [State.base_eq] at em
  have hs' : Served true (readSlots (8 * n)) s
      ((Run.recvSpan s.cfg s.base n 0 (Run.start (s.begin opc))).st.complete.setMem s.mem) :=
    ⟨hs.slots, hs.cmd, hs.addr, hs.result, hs.cfg, hs.host, hs.reads, rfl, hs.cmdErr, hs.drawCount⟩
  refine ⟨_, Run.finish_next e.stuckAt, hs', hs'.ofSetMem rfl, ?_⟩
  rw [State.base_eq]
  exact em

theorem Slots.withMem {p : Params} {reading : Bool} {txs : List Byte} {r r' : Run} (m : Memory)
    (h : Slots p reading txs r r') : Slots p reading txs (r.withMem m) (r'.withMem m) := by
  refine ⟨fun hg => ?_, fun hg => ?_⟩
  · rw [h.idle (by simpa [Run.going, Run.withMem] using hg)]
  · have b := h.made (by simpa [Run.going, Run.withMem] using hg)
    exact ⟨b.calls, b.answers, b.xferCount, b.drawCount, b.session, b.aborted, b.stuckAt,
      ⟨b.kept.cmd, b.kept.addr, b.kept.result, b.kept.cmdErr, b.kept.rate, rfl, b.kept.cfg, b.kept.host,
        b.kept.reads, b.kept.op⟩⟩

/-- RECV_BYTES over a buffer whose first byte not admitted is byte `k`: over if ABORT ended it in one of the slots up to
that byte's, else stuck there after them (R53, R180, R226 item 3). -/
theorem recvSpan_unadmitted {s : State} {opc : Byte} {n k : Nat} (hk : k < n)
    (h : ∀ j < k, admits s.cfg (s.addr.toNat + j) = true) (hn : admits s.cfg (s.addr.toNat + k) = false) :
    ∃ t, (Run.recvSpan s.cfg s.base n 0 (Run.start (s.begin opc))).finish =
        (if abortsOn s.cfg.timeoutPolicy (s.upcoming (8 * (k + 1))) then .next t
          else .fault (.bufferStuck (s.addr.toNat + k) t)) ∧
      Served true (readSlots (8 * (k + 1))) s (t.setMem s.mem) ∧
      t.mem = storeFrom s.addr.toNat 0
        (bytesReceived s.cfg.timeoutPolicy k (s.upcoming (8 * k)) s.drawCount) s.mem ∧
      (abortsOn s.cfg.timeoutPolicy (s.upcoming (8 * (k + 1))) = true → Completed s t) := by
  let r0 := Run.start (s.begin opc)
  let r1 := Run.recvSpan s.cfg s.base k 0 r0
  let r2 := (r1.act (fun s => s.setSeq { s.seq with j := BitVec.ofNat 16 k })).recvByteSlots s.cfg
  obtain ⟨e, em⟩ := Run.recvSpan_made s.cfg s.base k 0 r0 rfl (by simpa [effAddr, State.base_eq] using h)
  change SlotsFrom _ _ _ _ (r1.withMem s.mem) at e
  have hbyte : Slots s.cfg true (readSlots 8) r1 r2 :=
    (Slots.seqWrite s.cfg true (fun s => { s.seq with j := BitVec.ofNat 16 k }) (fun _ => rfl) r1).trans
      (Slots.recvByteSlots s.cfg _).1
  have e2 : SlotsFrom s.cfg true (readSlots (8 * (k + 1))) (s.begin opc) (r2.withMem s.mem) := by
    have a1 : Slots s.cfg true (readSlots (8 * k)) r0 (r1.withMem s.mem) :=
      ⟨fun hx => absurd hx (by simp [r0]), fun _ => e⟩
    rw [show 8 * (k + 1) = 8 * k + 8 by omega, readSlots_add]
    exact (a1.trans (hbyte.withMem s.mem)).made rfl
  have hs := e2.served
  have hg2 : r2.going = !abortsOn s.cfg.timeoutPolicy (s.upcoming (8 * (k + 1))) := by
    have := e2.going
    rw [length_readSlots] at this
    exact this
  have hmem : r2.st.mem = storeFrom s.addr.toNat 0
      (bytesReceived s.cfg.timeoutPolicy k (s.upcoming (8 * k)) s.drawCount) s.mem := by
    rw [hbyte.mem, ← State.base_eq]
    exact em
  have hrun : Run.recvSpan s.cfg s.base n 0 r0 =
      if r2.going then { r2 with stuckAt := some (effAddr s.base k) } else r2 := by
    obtain ⟨m, rfl⟩ : ∃ m, n = k + (m + 1) := ⟨n - k - 1, by omega⟩
    rw [Run.recvSpan_add, Nat.zero_add]
    split
    · rename_i hg
      exact Run.recvSpan_stuck s.cfg s.base m k (by simpa [effAddr, State.base_eq] using hn) hg
    · rename_i hg
      have hg' : r2.going = false := by simpa using hg
      have hw : r2.memWrite s.cfg (effAddr s.base k) r2.st.seq.acc = r2 := by
        unfold Run.memWrite
        rw [Run.request_of_not_going _ _ hg', Run.act_of_not_going hg']
      have hstep : Run.recvSpan s.cfg s.base (m + 1) k r1 =
          Run.recvSpan s.cfg s.base m (k + 1) (r2.memWrite s.cfg (effAddr s.base k) r2.st.seq.acc) := rfl
      rw [show Run.recvSpan s.cfg s.base k 0 r0 = r1 from rfl, hstep, hw, Run.recvSpan_of_not_going _ _ _ _ hg']
  rw [show Run.start (s.begin opc) = r0 from rfl, hrun, hg2]
  cases abortsOn s.cfg.timeoutPolicy (s.upcoming (8 * (k + 1))) with
  | true =>
    have hs' : Served true (readSlots (8 * (k + 1))) s (r2.st.complete.setMem s.mem) :=
      ⟨hs.slots, hs.cmd, hs.addr, hs.result, hs.cfg, hs.host, hs.reads, rfl, hs.cmdErr, hs.drawCount⟩
    exact ⟨r2.st.complete, Run.finish_next e2.stuckAt, hs', hmem, fun _ => hs'.ofSetMem rfl⟩
  | false =>
    refine ⟨r2.st, ?_, hs, hmem, fun hx => absurd hx (by simp)⟩
    rw [effAddr, State.base_eq]
    rfl

/-- The checksum loop over such a buffer (R53, R135). -/
theorem Run.crcSpan_first (p : Params) (base : Nat) {n k : Nat} (r : Run) (hg : r.going = true) (hk : k < n)
    (hadm : ∀ j < k, admits p (effAddr base j) = true) (hn : admits p (effAddr base k) = false) :
    ∃ q : Seq, q.op = r.st.seq.op ∧
      Run.crcSpan p base n 0 r =
        { st := r.st.setSeq q, aborted := r.aborted, stuckAt := some (effAddr base k) } := by
  obtain ⟨m, rfl⟩ : ∃ m, n = k + (m + 1) := ⟨n - k - 1, by omega⟩
  obtain ⟨q, hq, -, hr⟩ := Run.crcSpan_made p base k 0 r hg (by simpa using hadm)
  rw [Run.crcSpan_add, hr,
    Run.crcSpan_stuck p base m (0 + k) (r := { r with st := r.st.setSeq q }) (by simpa using hn) hg]
  exact ⟨{ q with j := BitVec.ofNat 16 (0 + k) }, hq, by simp [State.setSeq]⟩

/-- Either every byte of a buffer is admitted, or one is the first that is not. -/
theorem admitted_or_first (p : Params) (base n : Nat) :
    (∀ k < n, admits p (base + k) = true) ∨
      ∃ k < n, (∀ j < k, admits p (base + j) = true) ∧ admits p (base + k) = false := by
  induction n with
  | zero => exact .inl (fun k hk => absurd hk (Nat.not_lt_zero k))
  | succ n ih =>
    rcases ih with h | ⟨k, hk, h⟩
    · cases hn : admits p (base + n) with
      | true =>
        refine .inl (fun k hk => ?_)
        rcases Nat.lt_succ_iff_lt_or_eq.1 hk with h' | rfl
        · exact h k h'
        · exact hn
      | false => exact .inr ⟨n, Nat.lt_succ_self n, h, hn⟩
    · exact .inr ⟨k, Nat.lt_succ_of_lt hk, h⟩

end Sys2Proof.Machine
end

