-- ==== Sys2Proof/Laws/Inversion.lean ====
section
/-! SUPPORT. What each command can do when it gives a next state, said once: RESET, and every other command
(`DataCommand`). -/

namespace Sys2Proof.Machine

/-! ## RESET -/

/-- The state in which RESET makes its slot (R160). -/
structure BeforeResetSlot (s u : State) : Prop where
  calls : u.calls = s.calls ++ (if s.session = .ok then [] else [.reinit]) ++ [.setSpeed .reset]
  session : u.session = .ok
  answers : u.answers = s.answers
  xferCount : u.xferCount = s.xferCount
  drawCount : u.drawCount = s.drawCount
  cmd : u.cmd = s.cmd
  addr : u.addr = s.addr
  cfg : u.cfg = s.cfg
  host : u.host = s.host
  reads : u.reads = s.reads
  cmdErr : u.cmdErr = false
  mem : u.mem = s.mem
  nextAnswer : u.nextAnswer = s.nextAnswer

theorem beforeResetSlot (s : State) : BeforeResetSlot s ((recoverIfNeeded (s.begin 0x01#8)).setSpeed .reset) := by
  constructor <;>
    cases h : s.session <;>
      simp [recoverIfNeeded, State.begin, State.recover, State.setSpeed, h, State.nextAnswer]

/-- The state RESET leaves, from the one it makes its slot in. -/
def afterResetSlot (p : Params) (u : State) : State :=
  (((slot p p.resetPattern u).2.setSpeed .data).setResult
    (Byte.ofBit (presence p.resetPattern (slot p p.resetPattern u).1))).complete

/-- RESET always completes (R160). -/
theorem execReset_eq (s : State) : ∃ u, BeforeResetSlot s u ∧ execReset s = .next (afterResetSlot s.cfg u) :=
  ⟨_, beforeResetSlot s, rfl⟩

theorem afterResetSlot_result_lt (p : Params) (u : State) : (afterResetSlot p u).result.toNat < 256 := by
  have h := (Byte.ofBit (presence p.resetPattern (slot p p.resetPattern u).1)).isLt
  simp only [afterResetSlot, State.complete_result, State.setResult_result, Byte.zext, BitVec.toNat_setWidth]
  omega

/-! ## Every other command -/

/-- What a command other than RESET did to get from `s` to `t`: the slots `txs`, and the bytes `bs` stored. -/
structure DataCommand (i : Instr) (s t : State) : Prop where
  completed : Completed s t
  slots : ∃ txs, MadeSlots txs s t ∧ txs.length ≤ xferBound i ∧
    (s.cfg.timeoutPolicy = .contin → txs.length = xferBound i)
  kept : writesResult i = false → t.result = s.result
  value : writesResult i = true → t.result.toNat < 256
  stores : ∃ bs, t.mem = storeFrom s.addr.toNat 0 bs s.mem ∧
    (∀ k < bs.length, admits s.cfg (s.addr.toNat + k) = true) ∧
    bs.length ≤ match i with | .recvBytes n => n | _ => 0

theorem zext_lt (v : Byte) : v.zext.toNat < 256 := by
  have h := v.isLt
  simp only [Byte.zext, BitVec.toNat_setWidth]
  omega

/-- No slot at all. -/
theorem MadeSlots.none {s t : State} (hc : t.calls = s.calls) (ha : t.answers = s.answers)
    (hx : t.xferCount = s.xferCount) (hs : t.session = s.session) (hr : t.rate = s.rate) : MadeSlots [] s t := by
  cases hp : s.cfg.timeoutPolicy <;>
    simp [MadeSlots, usedAnswers, throughTimeout, slotCalls, hc, ha, hx, hs, hr, hp]

/-- A command that stores nothing and returns nothing. -/
theorem DataCommand.ofServed {i : Instr} {reading : Bool} {txs : List Byte} {s t : State}
    (h : Served reading txs s t) (hc : Completed s t) (hw : writesResult i = false) (hl : txs.length ≤ xferBound i)
    (he : s.cfg.timeoutPolicy = .contin → txs.length = xferBound i) : DataCommand i s t :=
  ⟨hc, ⟨txs, h.slots, hl, he⟩, fun _ => h.result, fun hx => absurd hx (by simp [hw]), ⟨[], h.mem, by simp, by simp⟩⟩

theorem Served.complete {reading : Bool} {txs : List Byte} {s t : State} (h : Served reading txs s t) :
    Served reading txs s t.complete :=
  ⟨h.slots, h.cmd, h.addr, h.result, h.cfg, h.host, h.reads, h.mem, h.cmdErr, h.drawCount⟩

/-- A command of a fixed number of slots that returns nothing (R165, R185, R200). -/
theorem DataCommand.ofSlots {i : Instr} {opc : Byte} {txs : List Byte} {s : State} {r : Run}
    (h : Slots s.cfg false txs (Run.start (s.begin opc)) r) (hw : writesResult i = false)
    (hl : txs.length = xferBound i) : DataCommand i s r.st.complete :=
  have hs := (h.made rfl).served
  .ofServed hs.complete hs.completed hw (le_of_eq hl) (fun _ => hl)

/-- A sending loop (R170, R195). -/
theorem DataCommand.ofSendSpan {i : Instr} {opc : Byte} {txs0 : List Byte} {s t : State} {r0 : Run} {n : Nat}
    (e0 : Slots s.cfg false txs0 (Run.start (s.begin opc)) r0) (hw : writesResult i = false)
    (hl : txs0.length + 8 * n = xferBound i) (hx : (Run.sendSpan s.cfg s.base n 0 r0).finish = .next t) :
    DataCommand i s t := by
  rcases admitted_or_first s.cfg s.addr.toNat n with h | ⟨k, hk, h, hn⟩
  · have e := SlotsFrom.sendSpan e0 h
    rw [Run.finish_next e.stuckAt] at hx
    cases hx
    have hs := e.served
    exact .ofServed hs.complete hs.completed hw (by simp [← hl]) (fun _ => by simp [← hl])
  · obtain ⟨t', h1, h2, h3⟩ := sendSpan_unadmitted e0 hk h hn
    rw [h1] at hx
    split at hx
    · rename_i hab
      cases hx
      refine .ofServed h2 (h3 hab) hw ?_ (fun hp => ?_)
      · simp only [List.length_append, length_byteSlots, List.length_map, List.length_range]
        omega
      · simp [abortsOn, hp] at hab
    · cases hx

theorem DataCommand.recvBytes {n : Nat} {s t : State} (hx : execRecvBytes n s = .next t) :
    DataCommand (.recvBytes n) s t := by
  unfold execRecvBytes at hx
  rcases admitted_or_first s.cfg s.addr.toNat n with h | ⟨k, hk, h, hn⟩
  · obtain ⟨t', h1, h2, h3, h4⟩ := recvSpan_admitted (opc := 0x05#8) h
    rw [h1] at hx
    cases hx
    have hl := length_bytesReceived_le s.cfg.timeoutPolicy n (s.upcoming (8 * n)) s.drawCount
    exact ⟨h3, ⟨_, h2.slots, by simp [xferBound], by simp [xferBound]⟩, fun _ => h2.result, by simp [writesResult],
      ⟨_, h4, fun k hk => h k (lt_of_lt_of_le hk hl), hl⟩⟩
  · obtain ⟨t', h1, h2, h3, h4⟩ := recvSpan_unadmitted (opc := 0x05#8) hk h hn
    rw [h1] at hx
    split at hx
    · rename_i hab
      cases hx
      have hl := length_bytesReceived_le s.cfg.timeoutPolicy k (s.upcoming (8 * k)) s.drawCount
      refine ⟨h4 hab, ⟨_, h2.slots, ?_, fun hp => ?_⟩, fun _ => h2.result, by simp [writesResult],
        ⟨_, h3, fun j hj => h j (lt_of_lt_of_le hj hl), ?_⟩⟩
      · simp only [length_readSlots, xferBound]
        omega
      · simp [abortsOn, hp] at hab
      · exact le_trans hl (le_of_lt hk)
    · cases hx

theorem DataCommand.recvByte (s : State) :
    DataCommand .recvByte s ((Run.start (s.begin 0x04#8)).recvByteSlots s.cfg).resultOrDrawByte.complete := by
  have h := (((Slots.recvByteSlots s.cfg (Run.start (s.begin 0x04#8))).1).made rfl).served
  unfold Run.resultOrDrawByte
  refine ⟨?_, ⟨readSlots 8, ?_, le_of_eq rfl, fun _ => rfl⟩, by simp [writesResult], fun _ => ?_,
    ⟨[], ?_, by simp, by simp⟩⟩
  · split <;> exact ⟨h.cmd, h.addr, h.cfg, h.host, h.reads, h.cmdErr, rfl⟩
  · split <;> exact h.slots
  · split <;> exact zext_lt _
  · split <;> exact h.mem

theorem DataCommand.readBit (s : State) :
    DataCommand .readBit s (resultOrDrawBit ((Run.start (s.begin 0x09#8)).readSlot s.cfg)).complete := by
  have h := ((Slots.readSlot s.cfg (Run.start (s.begin 0x09#8))).made rfl).served
  unfold resultOrDrawBit
  refine ⟨?_, ⟨[Config.release], ?_, le_of_eq rfl, fun _ => rfl⟩, by simp [writesResult], fun _ => ?_,
    ⟨[], ?_, by simp, by simp⟩⟩
  · split <;> exact ⟨h.cmd, h.addr, h.cfg, h.host, h.reads, h.cmdErr, rfl⟩
  · split <;> exact h.slots
  · split <;> exact zext_lt _
  · split <;> exact h.mem

/-- What CRC8 leaves: only the sequencer, `CMDERR` and `RESULT` differ. -/
theorem crcSpan_admitted {s : State} {n : Nat} (h : ∀ j < n, admits s.cfg (s.addr.toNat + j) = true) :
    ∃ q : Seq, q.crc = crc8 ((List.range n).map (fun k => s.mem.read (s.addr.toNat + k))) ∧
      execCrc8 n s = .next (((s.begin 0x0A#8).setSeq q).setResult q.crc).complete := by
  obtain ⟨q, -, hc, hr⟩ := Run.crcSpan_made s.cfg s.base n 0
    ((Run.start (s.begin 0x0A#8)).act (fun t => t.setSeq { t.seq with crc := Config.crcInit })) rfl
    (by simpa [effAddr, State.base_eq] using h)
  refine ⟨q, ?_, ?_⟩
  · rw [hc]
    simp only [effAddr, State.base_eq, Nat.zero_add]
    rfl
  · unfold execCrc8
    rw [hr]
    rfl

theorem crcSpan_unadmitted {s : State} {n k : Nat} (hk : k < n)
    (h : ∀ j < k, admits s.cfg (s.addr.toNat + j) = true) (hn : admits s.cfg (s.addr.toNat + k) = false) :
    ∃ q : Seq, q.op = some 0x0A#8 ∧
      execCrc8 n s = .fault (.bufferStuck (s.addr.toNat + k) ((s.begin 0x0A#8).setSeq q)) := by
  obtain ⟨q, hq, hr⟩ := Run.crcSpan_first s.cfg s.base
    ((Run.start (s.begin 0x0A#8)).act (fun t => t.setSeq { t.seq with crc := Config.crcInit })) rfl hk
    (by simpa [effAddr, State.base_eq] using h) (by simpa [effAddr, State.base_eq] using hn)
  refine ⟨q, hq, ?_⟩
  unfold execCrc8
  rw [hr, Run.act_of_not_going rfl, Run.finish_stuck rfl, effAddr, State.base_eq]
  rfl

/-- A command that makes no slot and stores nothing. -/
theorem DataCommand.ofValue {i : Instr} {s t : State} (hb : xferBound i = 0) (hw : writesResult i = true)
    (hc : Completed s t) (hr : t.result.toNat < 256) (hm : t.mem = s.mem) (hses : t.session = s.session)
    (hrate : t.rate = s.rate) (hn : NoTraffic s t) : DataCommand i s t :=
  ⟨hc, ⟨[], .none hn.1 hn.2.1 hn.2.2.1 hses hrate, by simp, by simp [hb]⟩, fun hx => absurd hx (by simp [hw]),
    fun _ => hr, ⟨[], hm, by simp, by simp⟩⟩

theorem DataCommand.crc8 {n : Nat} {s t : State} (hx : execCrc8 n s = .next t) : DataCommand (.crc8 n) s t := by
  rcases admitted_or_first s.cfg s.addr.toNat n with h | ⟨k, hk, h, hn⟩
  · obtain ⟨q, -, h1⟩ := crcSpan_admitted h
    rw [h1] at hx
    cases hx
    exact .ofValue rfl rfl ⟨rfl, rfl, rfl, rfl, rfl, rfl, rfl⟩ (zext_lt _) rfl rfl rfl ⟨rfl, rfl, rfl, rfl⟩
  · obtain ⟨q, -, h1⟩ := crcSpan_unadmitted hk h hn
    rw [h1] at hx
    cases hx

theorem DataCommand.encodeBit (b : Bool) (s : State) :
    DataCommand (.encodeBit b) s ((s.begin 0x0B#8).setResult (encBit b)).complete :=
  .ofValue rfl rfl ⟨rfl, rfl, rfl, rfl, rfl, rfl, rfl⟩ (zext_lt _) rfl rfl rfl ⟨rfl, rfl, rfl, rfl⟩

theorem DataCommand.decodeBit (x : Byte) (s : State) :
    DataCommand (.decodeBit x) s ((s.begin 0x0C#8).setResult (Byte.ofBit (decBit x))).complete :=
  .ofValue rfl rfl ⟨rfl, rfl, rfl, rfl, rfl, rfl, rfl⟩ (zext_lt _) rfl rfl rfl ⟨rfl, rfl, rfl, rfl⟩

theorem DataCommand.sendByte (b : Byte) (s : State) :
    DataCommand (.sendByte b) s ((Run.start (s.begin 0x02#8)).sendByteSlots s.cfg b).st.complete :=
  .ofSlots (Slots.sendByteSlots s.cfg b (Run.start (s.begin 0x02#8))) rfl rfl

theorem DataCommand.selectAll (s : State) :
    DataCommand .selectAll s ((Run.start (s.begin 0x07#8)).sendByteSlots s.cfg s.cfg.skipRomCmd).st.complete :=
  .ofSlots (Slots.sendByteSlots s.cfg s.cfg.skipRomCmd (Run.start (s.begin 0x07#8))) rfl rfl

theorem DataCommand.writeBit (b : Bool) (s : State) :
    DataCommand (.writeBit b) s ((Run.start (s.begin 0x08#8)).writeSlot s.cfg b).st.complete :=
  .ofSlots (Slots.writeSlot s.cfg b (Run.start (s.begin 0x08#8))) rfl rfl

theorem DataCommand.sendBytes {n : Nat} {s t : State} (hx : execSendBytes n s = .next t) :
    DataCommand (.sendBytes n) s t :=
  .ofSendSpan (Slots.none s.cfg false (Run.start (s.begin 0x03#8))) rfl (by simp [xferBound]) hx

theorem DataCommand.selectDevice {s t : State} (hx : execSelectDevice s = .next t) : DataCommand .selectDevice s t :=
  .ofSendSpan (Slots.sendByteSlots s.cfg s.cfg.matchRomCmd (Run.start (s.begin 0x06#8))) rfl rfl hx

/-- Whatever command but RESET gives a next state, it is a `DataCommand`. -/
theorem exec_next {i : Instr} {s t : State} (hi : i ≠ .reset) (hx : exec i s = .next t) : DataCommand i s t := by
  cases i with
  | reset => exact absurd rfl hi
  | sendByte b => cases hx; exact .sendByte b s
  | sendBytes n => exact .sendBytes hx
  | recvByte => cases hx; exact .recvByte s
  | recvBytes n => exact .recvBytes hx
  | selectDevice => exact .selectDevice hx
  | selectAll => cases hx; exact .selectAll s
  | writeBit b => cases hx; exact .writeBit b s
  | readBit => cases hx; exact .readBit s
  | crc8 n => exact .crc8 hx
  | encodeBit b => cases hx; exact .encodeBit b s
  | decodeBit x => cases hx; exact .decodeBit x s

end Sys2Proof.Machine
end

