-- ==== Sys2Proof/Laws/PerInstr.lean ====
section
/-! SUPPORT. Statements made of every command, one lemma per constructor. -/

namespace Sys2Proof

theorem opcField_packWord (len : BitVec 16) (data opc : Byte) : opcField (packWord len data opc) = opc := by
  apply BitVec.eq_of_getLsbD_eq
  intro i hi
  simp only [opcField, packWord, Byte.zext]
  interval_cases i <;> simp

theorem dataField_packWord (len : BitVec 16) (data opc : Byte) : dataField (packWord len data opc) = data := by
  apply BitVec.eq_of_getLsbD_eq
  intro i hi
  simp only [dataField, packWord, Byte.zext]
  interval_cases i <;> simp

theorem lenField_packWord (len : BitVec 16) (data opc : Byte) : lenField (packWord len data opc) = len := by
  apply BitVec.eq_of_getLsbD_eq
  intro i hi
  simp only [lenField, packWord, Byte.zext]
  interval_cases i <;> simp

end Sys2Proof

namespace Sys2Proof.Laws.EncodeFields

open Sys2Proof

/-- The word of a command holds, in each field, what the command has for it (spec R70, R79), and its opcode is one of the
twelve (R73). -/
def Statement (i : Instr) : Prop :=
  opcField (encode i) = opcodeOf i ∧ dataField (encode i) = dataOf i ∧ lenField (encode i) = lenOf i ∧
    1 ≤ (opcodeOf i).toNat ∧ (opcodeOf i).toNat ≤ 12

theorem ofOpcode (i : Instr) (h : 1 ≤ (opcodeOf i).toNat ∧ (opcodeOf i).toNat ≤ 12) : Statement i :=
  ⟨opcField_packWord _ _ _, dataField_packWord _ _ _, lenField_packWord _ _ _, h⟩

theorem reset : Statement .reset := ofOpcode _ (by decide)

theorem sendByte (data : Byte) : Statement (.sendByte data) := ofOpcode _ ⟨by simp [opcodeOf], by simp [opcodeOf]⟩

theorem sendBytes (len : Nat) : Statement (.sendBytes len) := ofOpcode _ ⟨by simp [opcodeOf], by simp [opcodeOf]⟩

theorem recvByte : Statement .recvByte := ofOpcode _ (by decide)

theorem recvBytes (len : Nat) : Statement (.recvBytes len) := ofOpcode _ ⟨by simp [opcodeOf], by simp [opcodeOf]⟩

theorem selectDevice : Statement .selectDevice := ofOpcode _ (by decide)

theorem selectAll : Statement .selectAll := ofOpcode _ (by decide)

theorem writeBit (bit : Bool) : Statement (.writeBit bit) := ofOpcode _ ⟨by simp [opcodeOf], by simp [opcodeOf]⟩

theorem readBit : Statement .readBit := ofOpcode _ (by decide)

theorem crc8 (len : Nat) : Statement (.crc8 len) := ofOpcode _ ⟨by simp [opcodeOf], by simp [opcodeOf]⟩

theorem encodeBit (bit : Bool) : Statement (.encodeBit bit) := ofOpcode _ ⟨by simp [opcodeOf], by simp [opcodeOf]⟩

theorem decodeBit (data : Byte) : Statement (.decodeBit data) := ofOpcode _ ⟨by simp [opcodeOf], by simp [opcodeOf]⟩

end Sys2Proof.Laws.EncodeFields
end

