-- ==== Sys2Proof/Tests/Slice0.lean ====
section
/-! SUPPORT. Tests of the model's own text, and a witness for every statement that has hypotheses. Expected values are
those of spec/95_test_vectors.md, or worked out by hand from the rule named. -/

namespace Sys2Proof.Tests

open Sys2Proof Sys2Proof.Machine

set_option maxRecDepth 20000

/-! ## Helpers -/

/-- The usual parameter values (R8), and a buffer at 0x100 to 0x10F. -/
def usual (policy : TimeoutPolicy) : Params where
  timeoutPolicy := policy
  resetPattern := 0xF0#8
  matchRomCmd := 0x55#8
  skipRomCmd := 0xCC#8
  wiredAnd := false
  memAdmit := [⟨0x100, 16⟩]

/-- A block after reset with these parameters, answers to come, and `ADDR` 0x100. -/
def bench (policy : TimeoutPolicy) (answers : List Answer) : State :=
  { State.reset with cfg := usual policy, answers := answers, addr := 0x100#32 }

/-- `bench` with the bytes at 0x100. -/
def benchWith (policy : TimeoutPolicy) (answers : List Answer) (bytes : List Byte) : State :=
  { bench policy answers with
    mem := (List.range bytes.length).foldl (fun m j => m.write (0x100 + j) (bytes.getD j 0x00#8)) [] }

/-- `bench` with `host` to do. -/
def asked (host : List HostAction) : State := { bench .contin [] with host := host }

/-- What `f` reads of the next state, if there is one. -/
def after {α : Type} (o : Host.Outcome State Fault Refusal) (f : State → α) : Option α :=
  match o with
  | .next t => some (f t)
  | .fault _ => none
  | .refused _ => none

/-- Is there a next state? -/
def isNext (o : Host.Outcome State Fault Refusal) : Bool := (after o (fun _ => ())).isSome

/-- Where the sequencer is stuck, if it is. -/
def stuckAt (o : Host.Outcome State Fault Refusal) : Option Nat :=
  match o with
  | .next _ => none
  | .fault (.bufferStuck a _) => some a
  | .fault (.hostStuck _ _) => none
  | .refused _ => none

/-- Is the host stuck? -/
def hostStuck (o : Host.Outcome State Fault Refusal) : Bool :=
  match o with
  | .next _ => false
  | .fault (.bufferStuck _ _) => false
  | .fault (.hostStuck _ _) => true
  | .refused _ => false

/-- A witness given by `isNext` is one of a next state. -/
theorem next_of_isNext {o : Host.Outcome State Fault Refusal} (h : isNext o = true) : ∃ t, o = .next t := by
  cases o with
  | next t => exact ⟨t, rfl⟩
  | fault f => cases h
  | refused r => cases h

/-- A witness given by `stuckAt` is one of a fault. -/
theorem fault_of_stuckAt {o : Host.Outcome State Fault Refusal} {a : Nat} (h : stuckAt o = some a) :
    ∃ held, o = .fault (.bufferStuck a held) := by
  cases o with
  | next t => cases h
  | fault f =>
    cases f with
    | bufferStuck b held => cases h; exact ⟨held, rfl⟩
    | hostStuck b held => cases h
  | refused r => cases h

/-- The bytes sent, of the calls made. -/
def sent (calls : List TransportCall) : List Byte :=
  calls.filterMap (fun c => match c with | .xfer tx _ => some tx | .setSpeed _ => none | .reinit => none)

/-- Answers that carry the bytes: 0xFF for a 1, 0xFE for a 0, bit 0 of each byte first. -/
def carrying (bytes : List Byte) : List Answer :=
  (byteSlots bytes).map (fun x => if x = 0xFF#8 then .ok 0xFF#8 else .ok 0xFE#8)

/-! ## WellFormed -/

theorem test_sendBytes_count_too_big : (Instr.sendBytes 65536).wf = false := by decide

theorem test_recvBytes_count_too_big : (Instr.recvBytes 65536).wf = false := by decide

theorem test_crc8_count_too_big : (Instr.crc8 65536).wf = false := by decide

theorem test_greatest_counts_are_well_formed :
    (Instr.sendBytes 65535).wf = true ∧ (Instr.recvBytes 65535).wf = true ∧ (Instr.crc8 65535).wf = true := by decide

/-! ## Decode: words written out from R70 and R73 -/

-- LEN 0000000000000000, DATA 00000000, OPC 00000001
theorem test_decode_reset : decode 0b00000000000000000000000000000001#32 = .ok .reset := by decide

-- DATA 01000100
theorem test_decode_sendByte : decode 0b00000000000000000100010000000010#32 = .ok (.sendByte 0x44#8) := by decide

-- LEN 1000000000000010
theorem test_decode_sendBytes : decode 0b10000000000000100000000000000011#32 = .ok (.sendBytes 32770) := by decide

-- unused fields all 1 (R75)
theorem test_decode_recvByte : decode 0b11111111111111111111111100000100#32 = .ok .recvByte := by decide

-- LEN 0000000000001001, DATA unused
theorem test_decode_recvBytes : decode 0b00000000000010011111111100000101#32 = .ok (.recvBytes 9) := by decide

theorem test_decode_selectDevice : decode 0b00000000000000000000000000000110#32 = .ok .selectDevice := by decide

theorem test_decode_selectAll : decode 0b00000000000000000000000000000111#32 = .ok .selectAll := by decide

-- DATA[0] is command bit 8
theorem test_decode_writeBit : decode 0b00000000000000000000000100001000#32 = .ok (.writeBit true) := by decide

theorem test_decode_readBit : decode 0b00000000000000000000000000001001#32 = .ok .readBit := by decide

theorem test_decode_crc8 : decode 0b00000000000001110000000000001010#32 = .ok (.crc8 7) := by decide

-- DATA 11111110: DATA[7:1] are ignored (R75)
theorem test_decode_encodeBit : decode 0b00000000000000001111111000001011#32 = .ok (.encodeBit false) := by decide

theorem test_decode_decodeBit : decode 0b00000000000000001111111000001100#32 = .ok (.decodeBit 0xFE#8) := by decide

-- R72: 0x00, 0x0D, 0xFF
theorem test_decode_illegal :
    decode 0x00000000#32 = .error (.illegalOpcode 0x00#8) ∧ decode 0x0000000D#32 = .error (.illegalOpcode 0x0D#8) ∧
      decode 0x000000FF#32 = .error (.illegalOpcode 0xFF#8) := by decide

-- R79's three examples
theorem test_encode :
    encode (.sendByte 0x44#8) = 0x00004402#32 ∧ encode (.recvBytes 9) = 0x00090005#32 ∧
      encode .reset = 0x00000001#32 := by decide

/-! ## Commands -/

-- S1
theorem test_reset_presence :
    after (exec .reset (bench .contin [.ok 0xE0#8])) (fun t => (t.calls, t.result, t.statusWord)) =
      some ([.setSpeed .reset, .xfer 0xF0#8 (.ok 0xE0#8), .setSpeed .data], 1#32, 0#32) := by decide

-- S7
theorem test_reset_timeout_after_timeout :
    after (exec .reset { bench .abort [.timeout] with session := .timeout, result := 1#32 })
        (fun t => (t.calls, t.result, t.statusWord)) =
      some ([.reinit, .setSpeed .reset, .xfer 0xF0#8 .timeout, .setSpeed .data], 0#32, 1#32) := by decide

-- S10
theorem test_sendByte_slots :
    after (exec (.sendByte 0x44#8) (bench .contin (List.replicate 8 (.ok 0x00#8)))) (fun t => (sent t.calls, t.statusWord)) =
      some ([0x00#8, 0x00#8, 0xFF#8, 0x00#8, 0x00#8, 0x00#8, 0xFF#8, 0x00#8], 0#32) := by decide +kernel

-- S12
theorem test_sendByte_abort :
    after (exec (.sendByte 0xFF#8) (bench .abort [.ok 0xFF#8, .ok 0xFF#8, .timeout, .ok 0xFF#8]))
        (fun t => (sent t.calls, t.statusWord)) =
      some ([0xFF#8, 0xFF#8, 0xFF#8], 1#32) := by decide +kernel

-- S14
theorem test_sendBytes_slots :
    after (exec (.sendBytes 2) (benchWith .contin (List.replicate 16 (.ok 0x00#8)) [0xCC#8, 0x44#8]))
        (fun t => sent t.calls) =
      some [0x00#8, 0x00#8, 0xFF#8, 0xFF#8, 0x00#8, 0x00#8, 0xFF#8, 0xFF#8,
        0x00#8, 0x00#8, 0xFF#8, 0x00#8, 0x00#8, 0x00#8, 0xFF#8, 0x00#8] := by decide +kernel

-- S16: ADDR is the last byte admitted
theorem test_sendBytes_stuck :
    stuckAt (exec (.sendBytes 2) { bench .contin (List.replicate 8 (.ok 0x00#8)) with addr := 0x10F#32 }) =
      some 0x110 := by decide +kernel

-- S17
theorem test_recvByte_value :
    after (exec .recvByte (bench .contin [.ok 0xFE#8, .ok 0xFF#8, .ok 0xFF#8, .ok 0xFF#8, .ok 0x80#8, .ok 0xFF#8,
        .ok 0xFF#8, .ok 0x00#8])) (fun t => (t.result, sent t.calls)) =
      some (0x6E#32, List.replicate 8 0xFF#8) := by decide +kernel

-- S20: RESULT is a draw
theorem test_recvByte_abort :
    after (exec .recvByte (bench .abort [.ok 0xFF#8, .timeout])) (fun t => (sent t.calls, t.statusWord, t.drawCount)) =
      some ([0xFF#8, 0xFF#8], 1#32, 1) := by decide +kernel

-- S21
theorem test_recvBytes_abort :
    after (exec (.recvBytes 3) (bench .abort (carrying [0xA5#8] ++ [.ok 0xFF#8, .ok 0xFF#8, .timeout])))
        (fun t => (t.mem, t.calls.length, t.statusWord)) =
      some ([(0x100, 0xA5#8)], 11, 1#32) := by decide +kernel

-- R180, R51: ascending, and RESULT unchanged
theorem test_recvBytes_stores :
    after (exec (.recvBytes 2) { bench .contin (carrying [0x50#8, 0x05#8]) with result := 7#32 })
        (fun t => (t.mem, t.result, t.statusWord)) =
      some ([(0x100, 0x50#8), (0x101, 0x05#8)], 7#32, 0#32) := by decide +kernel

-- S26
theorem test_writeBit_uses_bit_0 :
    after (step { bench .contin [.ok 0x00#8] with host := [.write 32 0x00 0x0000FE08#32] }) (fun t => t.calls) =
      some [.xfer 0x00#8 (.ok 0x00#8)] := by decide

-- S24, with a timeout (S11's status)
theorem test_writeBit_timeout :
    after (exec (.writeBit true) (bench .abort [.timeout])) (fun t => (t.calls, t.statusWord)) =
      some ([.xfer 0xFF#8 .timeout], 1#32) := by decide

-- S27
theorem test_readBit_one : after (exec .readBit (bench .contin [.ok 0xFF#8])) (fun t => t.result) = some 1#32 := by decide

-- S28, with TIMEOUT pending (R26)
theorem test_readBit_zero :
    after (exec .readBit { bench .contin [.ok 0xF8#8] with result := 9#32, session := .timeout })
        (fun t => (t.result, t.statusWord)) =
      some (0#32, 1#32) := by decide

-- S30's first two bytes
theorem test_selectDevice_slots :
    after (exec .selectDevice (benchWith .contin (List.replicate 72 (.ok 0x00#8))
        [0x28#8, 0xFF#8, 0x4C#8, 0x06#8, 0x15#8, 0x15#8, 0x02#8, 0x59#8]))
        (fun t => ((sent t.calls).take 16, t.calls.length)) =
      some ([0xFF#8, 0x00#8, 0xFF#8, 0x00#8, 0xFF#8, 0x00#8, 0xFF#8, 0x00#8,
        0x00#8, 0x00#8, 0x00#8, 0xFF#8, 0x00#8, 0xFF#8, 0x00#8, 0x00#8], 72) := by decide +kernel

-- S31
theorem test_selectAll_slots :
    after (exec .selectAll (bench .contin (List.replicate 8 (.ok 0x00#8)))) (fun t => sent t.calls) =
      some [0x00#8, 0x00#8, 0xFF#8, 0xFF#8, 0x00#8, 0x00#8, 0xFF#8, 0xFF#8] := by decide +kernel

-- R135's example
theorem test_crc8_value :
    after (exec (.crc8 7) (benchWith .contin [] [0x02#8, 0x1C#8, 0xB8#8, 0x01#8, 0x00#8, 0x00#8, 0x00#8]))
        (fun t => (t.result, t.calls)) = some (0xA2#32, []) := by decide +kernel

-- R135: no byte, and TIMEOUT stays
theorem test_crc8_empty :
    after (exec (.crc8 0) { bench .contin [] with result := 5#32, session := .timeout, cmdErr := true })
        (fun t => (t.result, t.statusWord)) = some (0#32, 1#32) := by decide

-- section 2.1: 0x0000FE0B gives 0x00
theorem test_encodeBit_uses_bit_0 :
    after (step { asked [.write 32 0x00 0x0000FE0B#32] with result := 5#32 }) (fun t => (t.result, t.cmd)) =
      some (0#32, 0x0000FE0B#32) := by decide

theorem test_encodeBit_one :
    after (exec (.encodeBit true) (bench .contin [])) (fun t => t.result) = some 0xFF#32 := by decide

-- section 2.1: 0xFF and 0x7F
theorem test_decodeBit_ff :
    after (exec (.decodeBit 0xFF#8) (bench .contin [])) (fun t => t.result) = some 1#32 := by decide

theorem test_decodeBit_7f :
    after (exec (.decodeBit 0x7F#8) { bench .contin [] with result := 1#32 }) (fun t => t.result) = some 0#32 := by decide

-- S34
theorem test_illegal_word_keeps_timeout :
    after (step { asked [.write 32 0x00 0x000000FF#32] with session := .timeout }) (fun t => (t.statusWord, t.calls)) =
      some (5#32, []) := by decide

/-! ## Functions -/

-- section 2.2's trace of crc8_step(0x00, 0x01): c after 1, 3 and 8 iterations
theorem test_crc_trace :
    (crcLoop 1 (0x00#8, 0x01#8)).1 = 0x8C#8 ∧ (crcLoop 3 (0x00#8, 0x01#8)).1 = 0x23#8 ∧
      (crcLoop 8 (0x00#8, 0x01#8)).1 = 0x5E#8 := by decide

-- section 2.1
theorem test_decodeBits :
    decodeBits [0xFE#8, 0xFF#8, 0xFF#8, 0xFF#8, 0x80#8, 0xFF#8, 0xFF#8, 0x00#8] = 0x6E#8 := by decide

-- writing 0x00 takes the entry out (log 6)
theorem test_memory_canonical :
    Memory.write [(1, 5#8), (3, 7#8)] 1 0x00#8 = [(3, 7#8)] ∧ Memory.write [(3, 7#8)] 1 5#8 = [(1, 5#8), (3, 7#8)] := by
  decide

/-! ## Assembler: lines of P1, P2, P6 -/

theorem test_assemble_text :
    assembleProgram ["go: SEND_BYTE 0x44 ; convert".toList, "CRC8 0x300, 7".toList, "READ STATUS".toList] =
      some [.write 32 0x00 0x00004402#32, .write 32 0x04 0x00000300#32, .write 32 0x00 0x0007000A#32,
        .read 32 0x0C] := by decide

-- an operand that does not fit (R79)
theorem test_assemble_too_wide : assembleProgram ["SEND_BYTE 0x100".toList] = none := by decide

/-! ## Witnesses: concrete inputs that meet the hypotheses of each statement -/

theorem witness_DecodeOfEncodeIsTheCommand :
    (Instr.sendBytes 65535).wf = true ∧ (Instr.recvBytes 0).wf = true ∧ (Instr.writeBit true).wf = true := by decide

theorem witness_EncodeOfDecodeKeepsTheUsedBits :
    decode 0xFFFF01FB#32 = .error (.illegalOpcode 0xFB#8) ∧ decode 0xFFFFFF08#32 = .ok (.writeBit true) ∧
      decode 0xFFFFFF0C#32 = .ok (.decodeBit 0xFF#8) ∧ decode 0xFFFFFF0A#32 = .ok (.crc8 65535) := by decide

/-- Two words that differ, and agree on what RECV_BYTE, WRITE_BIT and CRC8 use. -/
theorem witness_UnusedBitsAreIgnored :
    0xFFFFFF04#32 &&& usedBits (opcField 0xFFFFFF04#32) = 0x00000004#32 &&& usedBits (opcField 0xFFFFFF04#32) ∧
      0xFFFFFE08#32 &&& usedBits (opcField 0xFFFFFE08#32) = 0x00000008#32 &&& usedBits (opcField 0xFFFFFE08#32) ∧
      0x0007FF0A#32 &&& usedBits (opcField 0x0007FF0A#32) = 0x0007000A#32 &&& usedBits (opcField 0x0007FF0A#32) := by
  decide

/-- A word for each of the twelve clauses; the same words meet the first clause of each command's statement. -/
theorem witness_OpcodeSelectsTheCommand :
    BitVec.extractLsb' 0 8 0xFFFFFF01#32 = 0x01#8 ∧ BitVec.extractLsb' 0 8 0xFFFFFF02#32 = 0x02#8 ∧
      BitVec.extractLsb' 0 8 0xFFFFFF03#32 = 0x03#8 ∧ BitVec.extractLsb' 0 8 0xFFFFFF04#32 = 0x04#8 ∧
      BitVec.extractLsb' 0 8 0xFFFFFF05#32 = 0x05#8 ∧ BitVec.extractLsb' 0 8 0xFFFFFF06#32 = 0x06#8 ∧
      BitVec.extractLsb' 0 8 0xFFFFFF07#32 = 0x07#8 ∧ BitVec.extractLsb' 0 8 0xFFFFFF08#32 = 0x08#8 ∧
      BitVec.extractLsb' 0 8 0xFFFFFF09#32 = 0x09#8 ∧ BitVec.extractLsb' 0 8 0xFFFFFF0A#32 = 0x0A#8 ∧
      BitVec.extractLsb' 0 8 0xFFFFFF0B#32 = 0x0B#8 ∧ BitVec.extractLsb' 0 8 0xFFFFFF0C#32 = 0x0C#8 := by decide

theorem witness_StepPerformsTheDecodedCommand :
    (asked [.write 32 0x00 0x00000009#32]).host = .write 32 0x00 0x00000009#32 :: [] ∧
      decode 0x00000009#32 = .ok .readBit := by decide

/-- At both ends of the two ranges of illegal opcodes. -/
theorem witness_IllegalWordsOnlySetCmdErr :
    (asked [.write 32 0x00 0x00000000#32]).host = .write 32 0x00 0x00000000#32 :: [] ∧
      BitVec.extractLsb' 0 8 0x00000000#32 = 0#8 ∧ 0x0D ≤ (BitVec.extractLsb' 0 8 0x0000000D#32).toNat ∧
      0x0D ≤ (BitVec.extractLsb' 0 8 0x000000FF#32).toNat ∧ ¬0x0D ≤ (BitVec.extractLsb' 0 8 0x0000000C#32).toNat := by
  decide

theorem witness_HostReadsReturnTheRegisters :
    (asked [.read 32 0x00]).host = .read 32 0x00 :: [] ∧ (asked [.read 32 0x04]).host = .read 32 0x04 :: [] ∧
      (asked [.read 32 0x08]).host = .read 32 0x08 :: [] ∧ (asked [.read 32 0x0C]).host = .read 32 0x0C :: [] := by
  decide

theorem witness_HostWritesReachAddrOnly :
    (asked [.write 32 0x04 7#32]).host = .write 32 0x04 7#32 :: [] ∧
      (asked [.write 32 0x08 7#32]).host = .write 32 0x08 7#32 :: [] ∧
      (asked [.write 32 0x0C 7#32]).host = .write 32 0x0C 7#32 :: [] := by decide

/-- Another width; a multiple of 4 past the last offset; an offset between two registers. -/
theorem witness_OtherRegisterAccessesAreStuck :
    hostStuck (step (asked [.write 16 0x00 1#32])) = true ∧ hostStuck (step (asked [.read 8 0x0C])) = true ∧
      hostStuck (step (asked [.write 32 0x10 1#32])) = true ∧ hostStuck (step (asked [.read 32 0x02])) = true := by decide

/-- At the first and last byte admitted, and just outside. -/
theorem witness_HostBufferAccesses :
    (asked [.poke 0x100 1#8]).host = .poke 0x100 1#8 :: [] ∧ (asked [.peek 0x10F]).host = .peek 0x10F :: [] ∧
      admits (asked []).cfg 0x100 = true ∧ admits (asked []).cfg 0x10F = true ∧
      admits (asked []).cfg 0xFF = false ∧ admits (asked []).cfg 0x110 = false := by decide

theorem witness_WaitingBlockHoldsItsState : State.reset.host = [] ∧ (bench .abort []).host = [] := by decide

theorem witness_BlockResetValues : (asked [.blockReset, .peek 0x100]).host = .blockReset :: [.peek 0x100] := by decide

/-- A canonical memory, with an address listed, one unlisted between, and one past the end. -/
theorem witness_MemoryReadAfterWrite : Memory.wf [(1, 5#8), (3, 7#8)] = true := by decide

/-- Below and at the top of the address space. -/
theorem witness_AdmissionOfBufferRequests :
    admits { usual .contin with memAdmit := [⟨0xFFFFFFFF, 2⟩] } 0xFFFFFFFF = true ∧
      admits { usual .contin with memAdmit := [⟨0xFFFFFFFF, 2⟩] } 0x100000000 = false := by decide

theorem witness_DecodeBitsAssemblesTheByte : (List.replicate 8 0xFF#8 : List Byte).length = 8 ∧ 7 < 8 := by decide

/-- Sixteen bytes at 0x100; none where none is admitted; and not seventeen. -/
theorem witness_CrcCommandReturnsTheChecksum :
    buffersAdmitted (.crc8 16) (bench .contin []) = true ∧
      buffersAdmitted (.crc8 0) { bench .contin [] with addr := 0#32 } = true ∧
      buffersAdmitted (.crc8 17) (bench .contin []) = false := by decide

/-- The first byte and the last byte of the span. -/
theorem witness_CrcCommandStuckAtUnadmittedByte :
    (∀ j < 16, admits (bench .contin []).cfg ((bench .contin []).addr.toNat + j) = true) ∧
      admits (bench .contin []).cfg ((bench .contin []).addr.toNat + 16) = false ∧
      stuckAt (exec (.crc8 17) (bench .contin [])) = some 0x110 ∧
      stuckAt (exec (.crc8 1) { bench .contin [] with addr := 0xFF#32 }) = some 0xFF := by decide +kernel

/-- A successful RESET, one that saw no device, one that timed out. -/
theorem witness_SuccessfulResetMeansPresence :
    after (exec .reset (bench .contin [.ok 0x00#8])) successfulReset = some true ∧
      after (exec .reset (bench .contin [.ok 0xF0#8])) successfulReset = some false ∧
      after (exec .reset (bench .contin [.timeout])) successfulReset = some false := by decide

theorem witness_SendBytesSendsTheBuffer :
    buffersAdmitted (.sendBytes 16) (bench .contin []) = true ∧
      buffersAdmitted (.sendBytes 0) { bench .contin [] with addr := 0xFFFFFFFF#32 } = true := by decide

/-- Byte 1 of 2 is not admitted: stuck; over before it, if ABORT ended it in byte 0; and byte 0 not admitted. -/
theorem witness_SendBytesAtUnadmittedByte :
    admits (bench .abort []).cfg 0x10F = true ∧ admits (bench .abort []).cfg 0x110 = false ∧
      abortsOn .abort (State.upcoming { bench .abort [.timeout] with addr := 0x10F#32 } 8) = true ∧
      isNext (exec (.sendBytes 2) { bench .abort [.timeout] with addr := 0x10F#32 }) = true ∧
      stuckAt (exec (.sendBytes 2) { bench .abort (carrying [1#8]) with addr := 0x10F#32 }) = some 0x110 ∧
      stuckAt (exec (.sendBytes 1) { bench .abort [] with addr := 0xFF#32 }) = some 0xFF := by decide +kernel

theorem witness_RecvByteDecodesTheObservedBytes :
    State.upcoming (bench .abort (carrying [0x6E#8])) 8 =
      List.map Answer.ok [0xFE#8, 0xFF#8, 0xFF#8, 0xFF#8, 0xFE#8, 0xFF#8, 0xFF#8, 0xFE#8] := by decide

theorem witness_RecvBytesStoresTheBytes :
    buffersAdmitted (.recvBytes 16) (bench .abort []) = true ∧ (bench .abort []).mem.wf = true ∧
      buffersAdmitted (.recvBytes 0) { bench .abort [] with addr := 0#32 } = true := by decide

/-- ABORT in the second byte; a timeout under CONTINUE; no byte; and ABORT in the last byte before one not admitted. -/
theorem witness_RecvBytesCountsWholeBytes :
    after (exec (.recvBytes 2) (bench .abort (carrying [0xA5#8] ++ [.ok 0xFF#8, .timeout])))
        (fun t => (t.mem, t.calls.length)) = some ([(0x100, 0xA5#8)], 10) ∧
      after (exec (.recvBytes 1) (bench .contin (.timeout :: List.replicate 7 (.ok 0xFF#8)))) (fun t => t.calls.length) =
        some 8 ∧
      after (exec (.recvBytes 0) (bench .abort [])) (fun t => (t.mem, t.calls.length)) = some ([], 0) ∧
      after (exec (.recvBytes 2) { bench .abort [.timeout] with addr := 0x10F#32 }) (fun t => (t.mem, t.calls.length)) =
        some ([], 1) := by decide +kernel

/-- Byte 1 of 2 is not admitted: stuck after 16 slots, or over if ABORT ended it in one of them. -/
theorem witness_RecvBytesAtUnadmittedByte :
    admits (bench .abort []).cfg 0x10F = true ∧ admits (bench .abort []).cfg 0x110 = false ∧
      (bench .abort []).mem.wf = true ∧
      stuckAt (exec (.recvBytes 2) { bench .abort (carrying [1#8, 2#8]) with addr := 0x10F#32 }) = some 0x110 ∧
      isNext (exec (.recvBytes 2) { bench .abort (carrying [1#8] ++ [.timeout]) with addr := 0x10F#32 }) = true := by
  decide +kernel

theorem witness_SelectDeviceSendsTheAddress :
    buffersAdmitted .selectDevice (bench .contin []) = true ∧
      buffersAdmitted .selectDevice { bench .contin [] with addr := 0x108#32 } = true ∧
      buffersAdmitted .selectDevice { bench .contin [] with addr := 0x109#32 } = false := by decide

/-- The last address byte is not admitted; ABORT in the Match-ROM byte; the first address byte is not admitted. -/
theorem witness_SelectDeviceAtUnadmittedByte :
    (∀ j < 7, admits (bench .abort []).cfg (0x109 + j) = true) ∧ admits (bench .abort []).cfg (0x109 + 7) = false ∧
      stuckAt (exec .selectDevice { bench .abort (List.replicate 64 (.ok 0#8)) with addr := 0x109#32 }) = some 0x110 ∧
      isNext (exec .selectDevice { bench .abort [.timeout] with addr := 0x109#32 }) = true ∧
      stuckAt (exec .selectDevice { bench .contin (List.replicate 8 (.ok 0#8)) with addr := 0xFF#32 }) = some 0xFF := by
  decide +kernel

theorem witness_AdmittedCommandsComplete :
    buffersAdmitted .selectDevice (bench .contin []) = true ∧
      buffersAdmitted .reset { bench .contin [] with addr := 0#32 } = true := by decide

theorem witness_CommandsStopOnlyAtUnadmittedBytes :
    stuckAt (exec (.crc8 2) { bench .contin [] with addr := 0x10F#32 }) = some 0x110 := by decide

theorem witness_EveryCommandKeepsCmdAndAddr :
    isNext (exec .reset (bench .contin [.timeout])) = true ∧ isNext (exec (.crc8 1) (bench .contin [])) = true := by
  decide

/-- A command that writes `RESULT`, and one that does not. -/
theorem witness_OnlyValueCommandsWriteResult :
    isNext (exec .readBit (bench .contin [.ok 0#8])) = true ∧ writesResult .readBit = true ∧
      isNext (exec (.writeBit false) (bench .contin [.ok 0#8])) = true ∧ writesResult (.writeBit false) = false := by
  decide

/-- RECV_BYTES, with an address outside its byte; and another command. -/
theorem witness_OnlyRecvBytesWritesMemory :
    isNext (exec (.recvBytes 1) (bench .contin (carrying [1#8]))) = true ∧
      (∀ j < 1, 0x101 ≠ (bench .contin []).addr.toNat + j) ∧ isNext (exec (.crc8 1) (bench .contin [])) = true := by
  decide +kernel

/-- Under both policies. -/
theorem witness_DataCommandsMakeBoundedXfers :
    isNext (exec (.writeBit true) (bench .contin [.timeout])) = true ∧
      (bench .contin [.timeout]).cfg.timeoutPolicy = .contin ∧
      isNext (exec (.sendByte 1#8) (bench .abort [.timeout])) = true := by decide +kernel

/-- A command that timed out, one that did not, and RESET. -/
theorem witness_SessionIsStickyUntilReset :
    after (exec (.writeBit true) (bench .contin [.timeout])) (fun t => t.session) = some .timeout ∧
      after (exec (.writeBit true) (bench .contin [.ok 0#8])) (fun t => t.session) = some .ok ∧
      isNext (exec .reset (bench .contin [.ok 0#8])) = true := by decide

theorem witness_WiredAndHoldsOfEveryCall :
    isNext (exec (.writeBit false) { bench .contin [.ok 0xFF#8] with cfg := { usual .contin with wiredAnd := true } }) =
        true ∧
      (∀ c ∈ (bench .contin []).calls, wiredAndCall c = true) := by decide

/-- Another sequencer than the one at reset. -/
theorem witness_SequencerLeftoversAreNotRead :
    isNext (exec .readBit (bench .contin [.ok 0xFF#8])) = true ∧
      after (exec .readBit { bench .contin [.ok 0xFF#8] with
        seq := { op := none, j := 5#16, i := 3#3, acc := 0xAA#8, crc := 0x55#8 } }) (fun t => t.result) = some 1#32 := by
  decide

/-- A state that meets the invariant and is not the one after reset, with a step. -/
theorem witness_StepKeepsTheInvariant :
    BetweenCommands { benchWith .contin [.timeout] [1#8] with host := [.write 32 0x00 0x00000009#32], session := .timeout } ∧
      isNext (step { benchWith .contin [.timeout] [1#8] with
        host := [.write 32 0x00 0x00000009#32], session := .timeout }) = true := by
  refine ⟨?_, by decide⟩
  unfold BetweenCommands
  decide

end Sys2Proof.Tests
end

section
/-! PROOFS of the statements about the block's state and its host port (spec 10_state.md). -/

namespace Sys2Proof.Machine

/-! ## The transport's speed, and memory after stores -/

theorem speedAfter_append (r : Rate) (before after : List TransportCall) :
    speedAfter r (before ++ after) = speedAfter (speedAfter r before) after := by
  induction before generalizing r with
  | nil => rfl
  | cons c rest ih => cases c <;> exact ih _

theorem speedAfter_of_isXfer (r : Rate) {calls : List TransportCall} (h : ∀ c ∈ calls, isXfer c = true) :
    speedAfter r calls = r := by
  induction calls with
  | nil => rfl
  | cons c rest ih =>
    have hc := h c List.mem_cons_self
    cases c with
    | xfer tx a => exact ih fun d hd => h d (List.mem_cons_of_mem _ hd)
    | setSpeed r' => cases hc
    | reinit => cases hc

theorem storeFrom_wf (base j : Nat) (bs : List Byte) {m : Memory} (hm : m.wf = true) :
    (storeFrom base j bs m).wf = true := by
  induction bs generalizing j m with
  | nil => exact hm
  | cons b bs ih => exact ih (j + 1) (Memory.write_wf hm _ b)

/-- What holds of every address listed before and of every address stored at holds of every address listed after. -/
theorem storeFrom_forall_mem {P : Nat → Prop} {base j : Nat} {bs : List Byte} {m : Memory}
    (hm : ∀ c ∈ m, P c.1) (hb : ∀ k < bs.length, P (effAddr base (j + k))) :
    ∀ c ∈ storeFrom base j bs m, P c.1 := by
  induction bs generalizing j m with
  | nil => exact hm
  | cons b bs ih =>
    refine ih (fun c hc => ?_) (fun k hk => ?_)
    · rcases Memory.mem_write hc with h | h
      · simpa [h] using hb 0 (by simp)
      · exact hm c h
    · simpa [Nat.add_assoc, Nat.add_comm 1] using hb (k + 1) (by simpa using hk)

/-! ## The calls of a data command -/

/-- What the slots of a data command add to the calls: `Xfer` only, one a slot unless ABORT ended them, and one that timed
out exactly if `SESSION` is written (R151, R206). -/
theorem MadeSlots.added_calls {txs : List Byte} {s t : State} (h : MadeSlots txs s t) :
    ∃ made, t.calls = s.calls ++ made ∧ (∀ c ∈ made, isXfer c = true) ∧ made.length ≤ txs.length ∧
      (s.cfg.timeoutPolicy = .contin → made.length = txs.length) ∧
      ((∃ tx, TransportCall.xfer tx .timeout ∈ made) ↔ sawTimeout (s.upcoming txs.length) = true) := by
  obtain ⟨hcalls, -, -, -, -⟩ := h
  have hle : (usedAnswers s.cfg.timeoutPolicy (s.upcoming txs.length)).length ≤ txs.length := by
    simpa using length_usedAnswers_le s.cfg.timeoutPolicy (s.upcoming txs.length)
  refine ⟨_, hcalls, fun c => isXfer_of_mem_slotCalls, length_slotCalls_le _ _ _, fun hp => ?_, ?_⟩
  · rw [length_slotCalls hle, hp]
    exact s.length_upcoming txs.length
  · rw [timeout_mem_slotCalls hle, timeout_mem_usedAnswers]

/-! ## RESET -/

theorem execReset_next {s t : State} (hx : exec .reset s = .next t) :
    ∃ u, BeforeResetSlot s u ∧ t = afterResetSlot s.cfg u := by
  obtain ⟨u, hu, he⟩ := execReset_eq s
  cases he.symm.trans hx
  exact ⟨u, hu, rfl⟩

/-- Outside its calls, `RESULT`, `SESSION` and `RATE`, RESET keeps what every command keeps (R160). -/
theorem afterResetSlot_completed (p : Params) {s u : State} (hu : BeforeResetSlot s u) :
    Completed s (afterResetSlot p u) := by
  unfold afterResetSlot
  rw [slot_snd]
  exact ⟨hu.cmd, hu.addr, hu.cfg, hu.host, hu.reads, hu.cmdErr, rfl⟩

theorem afterResetSlot_session (p : Params) (u : State) :
    (afterResetSlot p u).session = if u.nextAnswer = .timeout then .timeout else u.session := by
  simp [afterResetSlot, slot_snd]

theorem afterResetSlot_session_ne_mismatch (p : Params) {s u : State} (hu : BeforeResetSlot s u) :
    (afterResetSlot p u).session ≠ .mismatch := by
  rw [afterResetSlot_session, hu.session]
  split <;> decide

theorem afterResetSlot_calls (p : Params) (u : State) :
    (afterResetSlot p u).calls =
      u.calls ++ [.xfer p.resetPattern (observed p.wiredAnd p.resetPattern u.nextAnswer), .setSpeed .data] := by
  simp [afterResetSlot, slot_snd]

theorem afterResetSlot_mem (p : Params) (u : State) : (afterResetSlot p u).mem = u.mem := by
  simp [afterResetSlot, slot_snd]

/-- RESET leaves the transport at `DATA_RATE`, whatever it was at (R31, R259). -/
theorem speedAfter_afterResetSlot_calls (p : Params) (u : State) (r : Rate) :
    speedAfter r (afterResetSlot p u).calls = .data := by
  rw [afterResetSlot_calls, speedAfter_append]
  rfl

/-! ## The invariant -/

theorem DataCommand.keeps_betweenCommands {i : Instr} {s t : State} (h : DataCommand i s t)
    (hs : BetweenCommands s) : BetweenCommands t := by
  obtain ⟨hwf, hadm, hres, hrate, hspeed, -, hses⟩ := hs
  obtain ⟨-, -, hcfg, -, -, -, hop⟩ := h.completed
  obtain ⟨txs, hslots, -, -⟩ := h.slots
  obtain ⟨made, hcalls, hxfer, -, -, -⟩ := hslots.added_calls
  obtain ⟨-, -, -, hses', hrate'⟩ := hslots
  obtain ⟨bs, hmem, hbs, -⟩ := h.stores
  refine ⟨?_, ?_, ?_, hrate'.trans hrate, ?_, hop, ?_⟩
  · rw [hmem]
    exact storeFrom_wf _ _ bs hwf
  · rw [hmem, hcfg]
    exact storeFrom_forall_mem (P := fun a => admits s.cfg a = true) hadm (by simpa [effAddr] using hbs)
  · cases hw : writesResult i with
    | true => exact h.value hw
    | false => rwa [h.kept hw]
  · rw [hcalls, speedAfter_append, hspeed, speedAfter_of_isXfer _ hxfer]
  · rw [hses']
    split
    · decide
    · exact hses

theorem afterResetSlot_betweenCommands {s u : State} (hu : BeforeResetSlot s u) (hs : BetweenCommands s) :
    BetweenCommands (afterResetSlot s.cfg u) := by
  obtain ⟨hwf, hadm, -, -, -, -, -⟩ := hs
  obtain ⟨-, -, hcfg, -, -, -, hop⟩ := afterResetSlot_completed s.cfg hu
  have hmem : (afterResetSlot s.cfg u).mem = s.mem := (afterResetSlot_mem _ _).trans hu.mem
  refine ⟨?_, ?_, afterResetSlot_result_lt _ _, rfl, speedAfter_afterResetSlot_calls _ _ _, hop,
    afterResetSlot_session_ne_mismatch _ hu⟩
  · rwa [hmem]
  · rwa [hmem, hcfg]

theorem exec_keeps_betweenCommands {i : Instr} {s t : State} (hs : BetweenCommands s) (hx : exec i s = .next t) :
    BetweenCommands t := by
  by_cases hi : i = .reset
  · subst hi
    obtain ⟨u, hu, rfl⟩ := execReset_next hx
    exact afterResetSlot_betweenCommands hu hs
  · exact (exec_next hi hx).keeps_betweenCommands hs

/-- `CMD`, `ADDR` and `CMDERR` are no part of the invariant, so only a legal word to `CMD` has work to do. -/
theorem writeReg_keeps_betweenCommands {g : BlockReg} {w : Word} {s t : State} (hs : BetweenCommands s)
    (hx : writeReg g w s = .next t) : BetweenCommands t := by
  cases g with
  | cmd =>
    simp only [writeReg, writeCmd] at hx
    split at hx
    · exact exec_keeps_betweenCommands (s := s.setCmd w) hs hx
    · cases hx; exact hs
  | addr => cases hx; exact hs
  | result => cases hx; exact hs
  | status => cases hx; exact hs

theorem setMem_write_betweenCommands {a : Nat} {s : State} (ha : admits s.cfg a = true) (v : Byte)
    (hs : BetweenCommands s) : BetweenCommands (s.setMem (s.mem.write a v)) := by
  obtain ⟨hwf, hadm, hrest⟩ := hs
  refine ⟨Memory.write_wf hwf a v, fun c hc => ?_, hrest⟩
  rcases Memory.mem_write hc with h | h
  · exact h ▸ ha
  · exact hadm c h

theorem blockReset_betweenCommands {s : State} (hs : BetweenCommands s) : BetweenCommands s.blockReset := by
  obtain ⟨hwf, hadm, -, -, hspeed, -, -⟩ := hs
  exact ⟨hwf, hadm, by simp, rfl, hspeed, rfl, by simp⟩

theorem hostStep_keeps_betweenCommands {a : HostAction} {rest : List HostAction} {s t : State}
    (hs : BetweenCommands s) (hx : hostStep a rest s = .next t) : BetweenCommands t := by
  cases a with
  | write width offset w =>
    simp only [hostStep] at hx
    split at hx
    · exact writeReg_keeps_betweenCommands (s := s.setHost rest) hs hx
    · cases hx
  | read width offset =>
    simp only [hostStep] at hx
    split at hx
    · cases hx; exact hs
    · cases hx
  | poke b v =>
    simp only [hostStep] at hx
    split at hx
    · rename_i ha
      cases hx
      exact setMem_write_betweenCommands (s := s.setHost rest) ha v hs
    · cases hx
  | peek b =>
    simp only [hostStep] at hx
    split at hx
    · cases hx; exact hs
    · cases hx
  | blockReset => cases hx; exact blockReset_betweenCommands (s := s.setHost rest) hs

/-- Settles O56, by the kinds of host action and, for a `CMD` write, by what each command can do (`exec_next`,
`execReset_next`). -/
theorem stepKeepsTheInvariant : Obligations.StepKeepsTheInvariant := by
  intro s s' hs hx
  unfold step at hx
  split at hx
  · cases hx; exact hs
  · exact hostStep_keeps_betweenCommands hs hx

/-! ## What every command leaves -/

/-- Settles O48: RESET, and every other command. -/
theorem everyCommandKeepsCmdAndAddr : Obligations.EveryCommandKeepsCmdAndAddr := by
  intro i s t hx
  by_cases hi : i = .reset
  · subst hi
    obtain ⟨u, hu, rfl⟩ := execReset_next hx
    exact afterResetSlot_completed s.cfg hu
  · exact (exec_next hi hx).completed

/-- Settles O49: RESET writes a presence bit; for the others it is part of `DataCommand`. -/
theorem onlyValueCommandsWriteResult : Obligations.OnlyValueCommandsWriteResult := by
  intro i s t hx
  by_cases hi : i = .reset
  · subst hi
    obtain ⟨u, -, rfl⟩ := execReset_next hx
    exact ⟨fun hw => absurd hw (by decide), fun _ => afterResetSlot_result_lt s.cfg u⟩
  · have h := exec_next hi hx
    exact ⟨h.kept, h.value⟩

/-- Settles O51: the calls are those of the command's slots, of which there are at most `xferBound`. -/
theorem dataCommandsMakeBoundedXfers : Obligations.DataCommandsMakeBoundedXfers := by
  intro i s t hx hi
  obtain ⟨txs, hslots, hle, heq⟩ := (exec_next hi hx).slots
  obtain ⟨made, hcalls, hxfer, hlen, hcontin, -⟩ := hslots.added_calls
  obtain ⟨-, -, -, -, hrate⟩ := hslots
  exact ⟨made, hcalls, hxfer, hlen.trans hle, fun hp => (hcontin hp).trans (heq hp), hrate⟩

/-- Settles O52: a call of the command timed out exactly if one of its answers did. -/
theorem sessionIsStickyUntilReset : Obligations.SessionIsStickyUntilReset := by
  intro i s t hx
  refine ⟨fun hi => ?_, fun hi => ?_⟩
  · obtain ⟨txs, hslots, -, -⟩ := (exec_next hi hx).slots
    obtain ⟨made, hcalls, -, -, -, htimeout⟩ := hslots.added_calls
    obtain ⟨-, -, -, hses, -⟩ := hslots
    rw [hses, hcalls, List.drop_left]
    simp only [htimeout]
  · subst hi
    obtain ⟨u, hu, rfl⟩ := execReset_next hx
    exact afterResetSlot_session_ne_mismatch s.cfg hu

/-! ## The sequencer's leftovers -/

/-- Whatever the sequencer held when a command that completes began, what the command leaves differs in the sequencer
only. -/
def IgnoresSeq (f : State → Host.Outcome State Fault Refusal) : Prop :=
  ∀ (s t : State) (q : Seq), f s = .next t → ∃ t', f (s.setSeq q) = .next t' ∧ t = t'.setSeq t.seq

/-- A command that always completes. -/
theorem IgnoresSeq.ofNext {g : State → State} (h : ∀ (s : State) (q : Seq), g s = (g (s.setSeq q)).setSeq (g s).seq) :
    IgnoresSeq fun s => .next (g s) := by
  intro s t q hx
  cases hx
  exact ⟨_, rfl, h s q⟩

theorem State.complete_eq_setSeq {t t' : State} {q : Seq} (h : t = t'.setSeq q) :
    t.complete = t'.complete.setSeq t.complete.seq := by
  rw [h]
  rfl

/-! ### What the slots made determine -/

/-- The slots made determine all that stands after them but the sequencer. -/
theorem Served.eq_setSeq {reading : Bool} {txs : List Byte} {s t t' : State} {q : Seq}
    (h : Served reading txs s t) (h' : Served reading txs (s.setSeq q) t') : t = t'.setSeq t.seq := by
  obtain ⟨⟨hcalls, hans, hcount, hses, hrate⟩, hcmd, haddr, hres, hcfg, hhost, hreads, hmem, herr, hdraw⟩ := h
  obtain ⟨⟨kcalls, kans, kcount, kses, krate⟩, kcmd, kaddr, kres, kcfg, khost, kreads, kmem, kerr, kdraw⟩ := h'
  cases t
  cases t'
  simp only at *
  subst_vars
  rfl

/-- Where bytes are stored, the slots made and the memory left determine the rest. -/
theorem Served.eq_setSeq_of_setMem {reading : Bool} {txs : List Byte} {s t t' : State} {q : Seq} {m : Memory}
    (h : Served reading txs s (t.setMem m)) (h' : Served reading txs (s.setSeq q) (t'.setMem m))
    (hmem : t.mem = t'.mem) : t = t'.setSeq t.seq :=
  calc t = (t.setMem m).setMem t.mem := rfl
    _ = ((t'.setMem m).setSeq t.seq).setMem t'.mem := by rw [h.eq_setSeq h', hmem]; rfl
    _ = t'.setSeq t.seq := rfl

section Starts

variable {reading : Bool} {txs : List Byte} {opc : Byte} {s : State} {q : Seq} {r r' : Run}
  (h : Slots s.cfg reading txs (Run.start (s.begin opc)) r)
  (h' : Slots s.cfg reading txs (Run.start ((s.setSeq q).begin opc)) r')

include h h'

/-- The same slots made from both starts: the same state but for the sequencer. -/
theorem Slots.st_eq_setSeq : r.st = r'.st.setSeq r.st.seq :=
  (h.made rfl).served.eq_setSeq (SlotsFrom.served (s := s.setSeq q) (h'.made rfl))

theorem Slots.aborted_eq : r.aborted = r'.aborted :=
  (h.made rfl).aborted.trans (h'.made rfl).aborted.symm

end Starts

/-! ### RESET -/

theorem recoverIfNeeded_setSeq (s : State) (q : Seq) :
    recoverIfNeeded (s.setSeq q) = (recoverIfNeeded s).setSeq q := by
  unfold recoverIfNeeded
  rw [State.setSeq_session]
  split <;> rfl

theorem afterResetSlot_setSeq (p : Params) (u : State) (q : Seq) :
    afterResetSlot p (u.setSeq q) = (afterResetSlot p u).setSeq { q with op := none } := by
  unfold afterResetSlot
  rw [slot_setSeq]
  rfl

theorem execReset_ignoresSeq : IgnoresSeq execReset := by
  intro s t q hx
  cases hx
  have hrec : recoverIfNeeded ((s.setSeq q).begin 0x01#8) =
      (recoverIfNeeded (s.begin 0x01#8)).setSeq { q with op := some 0x01#8 } :=
    recoverIfNeeded_setSeq (s.begin 0x01#8) _
  refine ⟨_, rfl, ?_⟩
  change afterResetSlot s.cfg _ = (afterResetSlot s.cfg (State.setSpeed .reset (recoverIfNeeded _))).setSeq _
  rw [hrec]
  exact (congrArg (State.setSeq _) (afterResetSlot_setSeq s.cfg _ _)).symm

/-! ### Sending -/

theorem execSendByte_ignoresSeq (b : Byte) : IgnoresSeq (execSendByte b) :=
  .ofNext fun s _ => State.complete_eq_setSeq
    ((Slots.sendByteSlots s.cfg b _).st_eq_setSeq (Slots.sendByteSlots s.cfg b _))

theorem execSelectAll_ignoresSeq : IgnoresSeq execSelectAll :=
  .ofNext fun s _ => State.complete_eq_setSeq
    ((Slots.sendByteSlots s.cfg s.cfg.skipRomCmd _).st_eq_setSeq (Slots.sendByteSlots s.cfg s.cfg.skipRomCmd _))

theorem execWriteBit_ignoresSeq (b : Bool) : IgnoresSeq (execWriteBit b) :=
  .ofNext fun s _ => State.complete_eq_setSeq
    ((Slots.writeSlot s.cfg b _).st_eq_setSeq (Slots.writeSlot s.cfg b _))

/-- A sending loop: both runs meet the same buffer. -/
theorem sendSpan_finish_ignoresSeq {s t : State} {q : Seq} {opc : Byte} {txs0 : List Byte} {r0 r0' : Run} {n : Nat}
    (e : Slots s.cfg false txs0 (Run.start (s.begin opc)) r0)
    (e' : Slots s.cfg false txs0 (Run.start ((s.setSeq q).begin opc)) r0')
    (hx : (Run.sendSpan s.cfg s.base n 0 r0).finish = .next t) :
    ∃ t', (Run.sendSpan s.cfg s.base n 0 r0').finish = .next t' ∧ t = t'.setSeq t.seq := by
  rcases admitted_or_first s.cfg s.addr.toNat n with h | ⟨k, hk, h, hn⟩
  · have m := SlotsFrom.sendSpan e h
    have m' := SlotsFrom.sendSpan (s := s.setSeq q) e' h
    rw [Run.finish_next m.stuckAt] at hx
    cases hx
    exact ⟨_, Run.finish_next m'.stuckAt, m.served.complete.eq_setSeq m'.served.complete⟩
  · obtain ⟨u, hfin, hu, -⟩ := sendSpan_unadmitted e hk h hn
    obtain ⟨u', hfin', hu', -⟩ := sendSpan_unadmitted (s := s.setSeq q) e' hk h hn
    rw [hfin] at hx
    split at hx
    · rename_i hab
      cases hx
      exact ⟨u', hfin'.trans (if_pos hab), hu.eq_setSeq hu'⟩
    · cases hx

theorem execSendBytes_ignoresSeq (n : Nat) : IgnoresSeq (execSendBytes n) := fun s _ q hx =>
  sendSpan_finish_ignoresSeq (s := s) (q := q) (Slots.none s.cfg false _) (Slots.none s.cfg false _) hx

theorem execSelectDevice_ignoresSeq : IgnoresSeq execSelectDevice := fun s _ q hx =>
  sendSpan_finish_ignoresSeq (s := s) (q := q) (Slots.sendByteSlots s.cfg s.cfg.matchRomCmd _)
    (Slots.sendByteSlots s.cfg s.cfg.matchRomCmd _) hx

/-! ### Receiving -/

theorem execRecvBytes_ignoresSeq (n : Nat) : IgnoresSeq (execRecvBytes n) := by
  intro s t q hx
  rcases admitted_or_first s.cfg s.addr.toNat n with h | ⟨k, hk, h, hn⟩
  · obtain ⟨u, hfin, hu, -, hmem⟩ := recvSpan_admitted (opc := 0x05#8) h
    obtain ⟨u', hfin', hu', -, hmem'⟩ := recvSpan_admitted (s := s.setSeq q) (opc := 0x05#8) h
    cases hfin.symm.trans hx
    exact ⟨u', hfin', hu.eq_setSeq_of_setMem hu' (hmem.trans hmem'.symm)⟩
  · obtain ⟨u, hfin, hu, hmem, -⟩ := recvSpan_unadmitted (opc := 0x05#8) hk h hn
    obtain ⟨u', hfin', hu', hmem', -⟩ := recvSpan_unadmitted (s := s.setSeq q) (opc := 0x05#8) hk h hn
    unfold execRecvBytes at hx
    rw [hfin] at hx
    split at hx
    · rename_i hab
      cases hx
      exact ⟨u', hfin'.trans (if_pos hab), hu.eq_setSeq_of_setMem hu' (hmem.trans hmem'.symm)⟩
    · cases hx

/-- `seq.acc` counts only where the byte was not aborted; else the byte is a draw. -/
theorem resultOrDrawByte_eq_setSeq {r r' : Run} {q : Seq} (hst : r.st = r'.st.setSeq q)
    (hab : r.aborted = r'.aborted) (hacc : r.aborted = false → r.st.seq.acc = r'.st.seq.acc) :
    r.resultOrDrawByte = r'.resultOrDrawByte.setSeq q := by
  unfold Run.resultOrDrawByte
  rw [← hab]
  split
  · rw [hst]; rfl
  · rename_i hgo
    rw [hacc (by simpa using hgo), hst]; rfl

/-- RECV_BYTE clears `seq.acc` before its first slot, so the byte it assembles is made of its own bits (R154, R175). -/
theorem execRecvByte_ignoresSeq : IgnoresSeq execRecvByte := by
  refine .ofNext fun s q => State.complete_eq_setSeq
    (q := ((Run.start (s.begin 0x04#8)).recvByteSlots s.cfg).st.seq) ?_
  obtain ⟨h, hacc⟩ := Slots.recvByteSlots s.cfg (Run.start (s.begin 0x04#8))
  obtain ⟨h', hacc'⟩ := Slots.recvByteSlots s.cfg (Run.start ((s.setSeq q).begin 0x04#8))
  have hab := h.aborted_eq h'
  refine resultOrDrawByte_eq_setSeq (h.st_eq_setSeq h') hab fun hno => ?_
  rw [hacc rfl ((Run.going_iff _).2 ⟨hno, (h.made rfl).stuckAt⟩)]
  exact (hacc' rfl ((Run.going_iff _).2 ⟨hab.symm.trans hno, (h'.made rfl).stuckAt⟩)).symm

theorem resultOrDrawBit_eq_setSeq {x x' : Bool × Run} {q : Seq} (hst : x.2.st = x'.2.st.setSeq q)
    (hab : x.2.aborted = x'.2.aborted) (hbit : x.1 = x'.1) :
    resultOrDrawBit x = (resultOrDrawBit x').setSeq q := by
  unfold resultOrDrawBit
  rw [← hab, ← hbit, hst]
  split <;> rfl

theorem execReadBit_ignoresSeq : IgnoresSeq execReadBit := by
  refine .ofNext fun s q => State.complete_eq_setSeq
    (q := ((Run.start (s.begin 0x09#8)).readSlot s.cfg).2.st.seq) ?_
  let r := Run.start (s.begin 0x09#8)
  let r' := Run.start ((s.setSeq q).begin 0x09#8)
  have h := Slots.readSlot s.cfg r
  have h' := Slots.readSlot s.cfg r'
  have hbit : [(r.readSlot s.cfg).1] = [(r'.readSlot s.cfg).1] :=
    (Run.readSlot_fst s.cfg (r := r) rfl).trans (Run.readSlot_fst s.cfg (r := r') rfl).symm
  exact resultOrDrawBit_eq_setSeq (h.st_eq_setSeq h') (h.aborted_eq h') (List.singleton_inj.1 hbit)

/-! ### CRC8 and the codec -/

/-- CRC8 sets `seq.crc` before its first byte (R135). -/
theorem execCrc8_ignoresSeq (n : Nat) : IgnoresSeq (execCrc8 n) := by
  intro s t q hx
  rcases admitted_or_first s.cfg s.addr.toNat n with h | ⟨k, hk, h, hn⟩
  · obtain ⟨p, hcrc, hfin⟩ := crcSpan_admitted h
    obtain ⟨p', hcrc', hfin'⟩ := crcSpan_admitted (s := s.setSeq q) h
    have hp : p.crc = p'.crc := hcrc.trans hcrc'.symm
    cases hfin.symm.trans hx
    refine ⟨_, hfin', ?_⟩
    rw [hp]
    rfl
  · obtain ⟨p, -, hfin⟩ := crcSpan_unadmitted hk h hn
    cases hfin.symm.trans hx

theorem execEncodeBit_ignoresSeq (b : Bool) : IgnoresSeq (execEncodeBit b) := .ofNext fun _ _ => rfl

theorem execDecodeBit_ignoresSeq (x : Byte) : IgnoresSeq (execDecodeBit x) := .ofNext fun _ _ => rfl

theorem exec_ignoresSeq (i : Instr) : IgnoresSeq (exec i) := by
  cases i with
  | reset => exact execReset_ignoresSeq
  | sendByte b => exact execSendByte_ignoresSeq b
  | sendBytes n => exact execSendBytes_ignoresSeq n
  | recvByte => exact execRecvByte_ignoresSeq
  | recvBytes n => exact execRecvBytes_ignoresSeq n
  | selectDevice => exact execSelectDevice_ignoresSeq
  | selectAll => exact execSelectAll_ignoresSeq
  | writeBit b => exact execWriteBit_ignoresSeq b
  | readBit => exact execReadBit_ignoresSeq
  | crc8 n => exact execCrc8_ignoresSeq n
  | encodeBit b => exact execEncodeBit_ignoresSeq b
  | decodeBit x => exact execDecodeBit_ignoresSeq x

/-- Settles O54: every command ignores the sequencer it is given. -/
theorem sequencerLeftoversAreNotRead : Obligations.SequencerLeftoversAreNotRead := by
  intro i s t q hx
  obtain ⟨t', hx', ht⟩ := exec_ignoresSeq i s t q hx
  exact ⟨t', hx', ht.symm⟩

/-! ## The host port -/

theorem step_write {s : State} {offset : Nat} {w : Word} {rest : List HostAction} {g : BlockReg}
    (h : s.host = .write 32 offset w :: rest) (hg : regAt 32 offset = some g) :
    step s = writeReg g w (s.setHost rest) := by
  simp only [step, h, hostStep, hg]

theorem step_read {s : State} {offset : Nat} {rest : List HostAction} {g : BlockReg}
    (h : s.host = .read 32 offset :: rest) (hg : regAt 32 offset = some g) :
    step s = .next ((s.setHost rest).logRead (readReg g s)) := by
  simp only [step, h, hostStep, hg]

/-- What the host reads of `RESULT` is its low byte (R23). -/
theorem readReg_result (s : State) : readReg .result s = (s.result.extractLsb' 0 8).setWidth 32 := by
  apply BitVec.eq_of_toNat_eq
  simp [readReg, Nat.and_two_pow_sub_one_eq_mod s.result.toNat 8]
  omega

/-- Settles O6: the `CMD` write decodes its word to `i` and performs it. -/
theorem stepPerformsTheDecodedCommand : Obligations.StepPerformsTheDecodedCommand := by
  intro s w rest i hhost hdec
  rw [step_write hhost (g := .cmd) rfl]
  simp only [writeReg, writeCmd, hdec]
  rfl

/-- Settles O8, register by register. -/
theorem hostReadsReturnTheRegisters : Obligations.HostReadsReturnTheRegisters := by
  intro s rest
  refine ⟨fun h => ?_, fun h => ?_, fun h => ?_, fun h => ?_⟩
  · exact step_read h (g := .cmd) rfl
  · exact step_read h (g := .addr) rfl
  · rw [← readReg_result]
    exact step_read h (g := .result) rfl
  · exact step_read h (g := .status) rfl

/-- Settles O9, register by register. -/
theorem hostWritesReachAddrOnly : Obligations.HostWritesReachAddrOnly := by
  intro s w rest
  refine ⟨fun h => ?_, fun h => ?_, fun h => ?_⟩
  · exact step_write h (g := .addr) rfl
  · exact step_write h (g := .result) rfl
  · exact step_write h (g := .status) rfl

/-- Settles O11: the word depends on `RATE`, `CMDERR` and `SESSION` only, twelve cases in all. -/
theorem statusWordLayout : Obligations.StatusWordLayout := by
  intro s
  unfold State.statusWord
  generalize s.rate = rate
  generalize s.cmdErr = err
  generalize s.session = session
  cases rate <;> cases err <;> cases session <;> decide

end Sys2Proof.Machine
end

section
/-! PROOFS of the statements about buffer memory and buffer requests (spec 20_memory.md). -/

namespace Sys2Proof.Machine

/-! ## Memory and admission -/

/-- Settles O16: the byte written reads back, since the memory is canonical; another is as before. -/
theorem memoryReadAfterWrite : Obligations.MemoryReadAfterWrite := by
  intro m a b v hm
  split
  · rename_i hab
    rw [hab]
    exact Memory.read_write_same hm a v
  · rename_i hab
    exact Memory.read_write_other m v hab

theorem regionHolds_iff (g : Region) (a : Nat) : regionHolds g a = true ↔ g.base ≤ a ∧ a < g.base + g.size := by
  simp [regionHolds]

/-- Settles O17: `ADDR_W` is 32, and `MemAdmit` is the union of its regions. -/
theorem admissionOfBufferRequests : Obligations.AdmissionOfBufferRequests := by
  intro p a
  simp only [admits, Bool.and_eq_true, decide_eq_true_eq, List.any_eq_true, regionHolds_iff]
  rfl

/-! ## Register accesses that are not admitted -/

/-- An access of another width or at another offset reaches no register (R54). -/
theorem regAt_eq_none {width offset : Nat}
    (h : ¬(width = 32 ∧ (offset = 0x00 ∨ offset = 0x04 ∨ offset = 0x08 ∨ offset = 0x0C))) :
    regAt width offset = none := by
  unfold regAt
  by_cases hw : width = 32
  · have ho : ¬(offset = 0x00 ∨ offset = 0x04 ∨ offset = 0x08 ∨ offset = 0x0C) := fun ho => h ⟨hw, ho⟩
    simp only [not_or] at ho
    simp [ho]
  · simp [hw]

/-- Settles O10: the access reaches no register. -/
theorem otherRegisterAccessesAreStuck : Obligations.OtherRegisterAccessesAreStuck := by
  intro s width offset w rest h
  have hreg := regAt_eq_none h
  refine ⟨fun hhost => ?_, fun hhost => ?_⟩
  · simp only [step, hhost, hostStep, hreg]
  · simp only [step, hhost, hostStep, hreg]

/-! ## At the first byte that is not admitted -/

/-- Settles O35: the sending loop, with no slot before it. -/
theorem sendBytesAtUnadmittedByte : Obligations.SendBytesAtUnadmittedByte := by
  intro n k s hk h hn
  obtain ⟨t, hx, ht, -⟩ := sendSpan_unadmitted (Slots.none s.cfg false (Run.start (s.begin 0x03#8))) hk h hn
  rw [List.length_nil, Nat.zero_add] at hx
  exact ⟨t, hx, ht.slots, ht.result, ht.cmdErr, ht.sameBytes, ht.noDraws⟩

/-- Settles O44: the sending loop, after the eight slots of Match-ROM. -/
theorem selectDeviceAtUnadmittedByte : Obligations.SelectDeviceAtUnadmittedByte := by
  intro k s hk h hn
  obtain ⟨t, hx, ht, -⟩ :=
    sendSpan_unadmitted (Slots.sendByteSlots s.cfg s.cfg.matchRomCmd (Run.start (s.begin 0x06#8))) hk h hn
  rw [length_encodeByte] at hx
  exact ⟨t, hx, ht.slots, ht.result, ht.cmdErr, ht.sameBytes, ht.noDraws⟩

/-- Settles O40: the receiving loop; what it stores is read back by `storeFrom_same` and `storeFrom_other`. -/
theorem recvBytesAtUnadmittedByte : Obligations.RecvBytesAtUnadmittedByte := by
  intro n k s hk h hn
  obtain ⟨t, hx, ht, hmem, -⟩ := recvSpan_unadmitted (opc := 0x05#8) hk h hn
  refine ⟨t, _, hx, rfl, ht.slots, fun hwf j hj => ?_, fun a ha => ?_, ht.result, ht.cmdErr⟩
  · rw [hmem]
    simpa [effAddr] using storeFrom_same s.addr.toNat 0 _ hwf hj
  · rw [hmem]
    exact storeFrom_other _ _ _ _ (by simpa [effAddr] using ha)

/-! ## Where a command stops -/

/-- How a command that reaches `n` buffer bytes from `s` can end: with a next state, or stuck at the first of the bytes
that is not admitted (R53, R225). -/
inductive EndsWithin (n : Nat) (s : State) : Host.Outcome State Fault Refusal → Prop where
  | next (t : State) : EndsWithin n s (.next t)
  | stuck (k : Nat) (held : State) (hk : k < n) (hn : admits s.cfg (s.addr.toNat + k) = false)
      (h : ∀ j < k, admits s.cfg (s.addr.toNat + j) = true) :
      EndsWithin n s (.fault (.bufferStuck (s.addr.toNat + k) held))

/-- It is enough to say how the command ends on an admitted buffer and at a first byte that is not admitted. -/
theorem EndsWithin.ofFirst {n : Nat} {s : State} {o : Host.Outcome State Fault Refusal}
    (hadm : (∀ j < n, admits s.cfg (s.addr.toNat + j) = true) → ∃ t, o = .next t)
    (hfirst : ∀ k < n, (∀ j < k, admits s.cfg (s.addr.toNat + j) = true) →
      admits s.cfg (s.addr.toNat + k) = false →
        ∃ t, o = .next t ∨ o = .fault (.bufferStuck (s.addr.toNat + k) t)) :
    EndsWithin n s o := by
  rcases admitted_or_first s.cfg s.addr.toNat n with h | ⟨k, hk, h, hn⟩
  · obtain ⟨t, rfl⟩ := hadm h
    exact .next t
  · obtain ⟨t, rfl | rfl⟩ := hfirst k hk h hn
    · exact .next t
    · exact .stuck k t hk hn h

theorem endsWithin_sendSpan {s : State} {opc : Byte} {txs0 : List Byte} {r0 : Run} (n : Nat)
    (e0 : Slots s.cfg false txs0 (Run.start (s.begin opc)) r0) :
    EndsWithin n s (Run.sendSpan s.cfg s.base n 0 r0).finish := by
  refine .ofFirst (fun h => ⟨_, Run.finish_next (SlotsFrom.sendSpan e0 h).stuckAt⟩) (fun k hk h hn => ?_)
  obtain ⟨t, hx, -, -⟩ := sendSpan_unadmitted e0 hk h hn
  exact ⟨t, by rw [hx]; exact ite_eq_or_eq _ _ _⟩

theorem endsWithin_recvSpan (s : State) (opc : Byte) (n : Nat) :
    EndsWithin n s (Run.recvSpan s.cfg s.base n 0 (Run.start (s.begin opc))).finish := by
  refine .ofFirst (fun h => ?_) (fun k hk h hn => ?_)
  · obtain ⟨t, hx, -⟩ := recvSpan_admitted (opc := opc) h
    exact ⟨t, hx⟩
  · obtain ⟨t, hx, -⟩ := recvSpan_unadmitted (opc := opc) hk h hn
    exact ⟨t, by rw [hx]; exact ite_eq_or_eq _ _ _⟩

theorem endsWithin_execCrc8 (n : Nat) (s : State) : EndsWithin n s (execCrc8 n s) := by
  refine .ofFirst (fun h => ?_) (fun k hk h hn => ?_)
  · obtain ⟨q, -, hx⟩ := crcSpan_admitted h
    exact ⟨_, hx⟩
  · obtain ⟨q, -, hx⟩ := crcSpan_unadmitted hk h hn
    exact ⟨_, .inr hx⟩

/-- How each command can end. -/
theorem exec_endsWithin (i : Instr) (s : State) : EndsWithin (bufferBytes i) s (exec i s) := by
  cases i with
  | reset => exact .next _
  | sendByte b => exact .next _
  | sendBytes n => exact endsWithin_sendSpan n (Slots.none s.cfg false (Run.start (s.begin 0x03#8)))
  | recvByte => exact .next _
  | recvBytes n => exact endsWithin_recvSpan s 0x05#8 n
  | selectDevice =>
    exact endsWithin_sendSpan Config.romLen
      (Slots.sendByteSlots s.cfg s.cfg.matchRomCmd (Run.start (s.begin 0x06#8)))
  | selectAll => exact .next _
  | writeBit b => exact .next _
  | readBit => exact .next _
  | crc8 n => exact endsWithin_execCrc8 n s
  | encodeBit b => exact .next _
  | decodeBit x => exact .next _

/-- Settles O47, from how each command can end. -/
theorem commandsStopOnlyAtUnadmittedBytes : Obligations.CommandsStopOnlyAtUnadmittedBytes := by
  intro i s
  have hends := exec_endsWithin i s
  generalize exec i s = o at hends ⊢
  cases hends with
  | next t => exact ⟨fun _ => nofun, fun _ => nofun⟩
  | stuck k held hk hn h =>
    refine ⟨fun f hf => ?_, fun _ => nofun⟩
    cases hf
    exact ⟨k, held, rfl, hk, hn, h⟩

/-! ## What a command writes -/

/-- Settles O50: RESET stores nothing, and every other command only the bytes of `DataCommand`, none unless it is
RECV_BYTES. -/
theorem onlyRecvBytesWritesMemory : Obligations.OnlyRecvBytesWritesMemory := by
  intro i s t hx
  by_cases hi : i = .reset
  · subst hi
    obtain ⟨u, hu, rfl⟩ := execReset_next hx
    refine ⟨fun _ => nofun, fun _ a => ?_⟩
    rw [afterResetSlot_mem, hu.mem]
  · obtain ⟨bs, hmem, -, hlen⟩ := (exec_next hi hx).stores
    rw [SameBytes, hmem]
    refine ⟨fun n hn a ha => ?_, fun hn a => ?_⟩
    · subst hn
      exact storeFrom_other _ _ _ _ (fun k hk => by simpa [effAddr] using ha k (lt_of_lt_of_le hk hlen))
    · split at hlen
      · exact absurd rfl (hn _)
      · rw [List.length_eq_zero_iff.1 (Nat.le_zero.1 hlen)]
        rfl

end Sys2Proof.Machine
end

section
/-! PROOFS of the statements about the encoding (spec 30_encoding.md). -/

namespace Sys2Proof.Machine

/-! ## The fields of a word -/

/-- A word is its three fields (R70). -/
theorem eq_of_fields_eq {w w' : Word} (hopc : opcField w = opcField w') (hdata : dataField w = dataField w')
    (hlen : lenField w = lenField w') : w = w' := by
  have := congrArg BitVec.toNat hopc
  have := congrArg BitVec.toNat hdata
  have := congrArg BitVec.toNat hlen
  simp only [opcField, dataField, lenField, BitVec.extractLsb'_toNat, Nat.shiftRight_eq_div_pow] at *
  apply BitVec.eq_of_toNat_eq
  omega

theorem opcField_and (w m : Word) : opcField (w &&& m) = opcField w &&& opcField m := BitVec.extractLsb'_and

theorem dataField_and (w m : Word) : dataField (w &&& m) = dataField w &&& dataField m := BitVec.extractLsb'_and

theorem lenField_and (w m : Word) : lenField (w &&& m) = lenField w &&& lenField m := BitVec.extractLsb'_and

/-- `DATA[0]` is command bit 8 (R74). -/
theorem bitField_eq_getLsbD (w : Word) : bitField w = w.getLsbD 8 := by
  simp [bitField, dataField]

theorem ofBit_getElem_zero (b : Byte) : Byte.ofBit b[0] = b &&& 1#8 := by
  revert b
  decide

theorem bitField_of_dataField_eq {w : Word} {b : Bool} (h : dataField w = Byte.ofBit b) : bitField w = b := by
  rw [bitField, h]
  cases b <;> rfl

/-- Every command uses the whole of `OPC` (R75). -/
theorem opcField_usedBits (opc : Byte) : opcField (usedBits opc) = BitVec.allOnes 8 := by
  unfold usedBits
  split_ifs <;> rfl

/-- `DATA` is used by SEND_BYTE and DECODE_BIT, its bit 0 by WRITE_BIT and ENCODE_BIT (R73, R75). -/
theorem dataField_usedBits (opc : Byte) : dataField (usedBits opc) =
    if opc = 0x02#8 ∨ opc = 0x0C#8 then BitVec.allOnes 8 else if opc = 0x08#8 ∨ opc = 0x0B#8 then 1#8 else 0#8 := by
  revert opc
  decide

/-- `LEN` is used by SEND_BYTES, RECV_BYTES and CRC8 (R73, R75). -/
theorem lenField_usedBits (opc : Byte) : lenField (usedBits opc) =
    if opc = 0x03#8 ∨ opc = 0x05#8 ∨ opc = 0x0A#8 then BitVec.allOnes 16 else 0#16 := by
  revert opc
  decide

theorem opcField_and_usedBits (w : Word) (opc : Byte) : opcField (w &&& usedBits opc) = opcField w := by
  rw [opcField_and, opcField_usedBits, BitVec.and_allOnes]

/-! ## What a word decodes to -/

/-- The operands of the command are those in the word's fields (R74). -/
def HoldsOperands (w : Word) : Instr → Prop
  | .sendByte data => dataField w = data
  | .sendBytes len => (lenField w).toNat = len
  | .recvBytes len => (lenField w).toNat = len
  | .writeBit bit => bitField w = bit
  | .crc8 len => (lenField w).toNat = len
  | .encodeBit bit => bitField w = bit
  | .decodeBit data => dataField w = data
  | .reset => True
  | .recvByte => True
  | .selectDevice => True
  | .selectAll => True
  | .readBit => True

/-- A word decodes to the commands whose opcode and operands it holds (R71, R73, R74). -/
theorem decode_eq_ok_iff {w : Word} {i : Instr} :
    decode w = .ok i ↔ opcField w = opcodeOf i ∧ HoldsOperands w i := by
  constructor
  · intro h
    unfold decode at h
    split at h <;> cases h
    all_goals exact ⟨BitVec.eq_of_toNat_eq ‹_›, by simp only [HoldsOperands]⟩
  · rintro ⟨hopc, hops⟩
    unfold decode
    rw [hopc]
    cases i <;> cases hops <;> rfl

/-- The one error of the decoder, and that it depends on `OPC` alone (R71, R72). -/
theorem decode_eq_error_iff {w : Word} {e : DecodeError} :
    decode w = .error e ↔ e = .illegalOpcode (opcField w) ∧ (opcField w = 0#8 ∨ 0x0D ≤ (opcField w).toNat) := by
  rw [← BitVec.toNat_inj, BitVec.toNat_ofNat, Nat.zero_mod]
  unfold decode
  split
  case h_13 =>
    have hopc : (opcField w).toNat = 0 ∨ 0x0D ≤ (opcField w).toNat := by
      generalize (opcField w).toNat = n at *
      by_contra hn
      obtain ⟨h0, h13⟩ := not_or.1 hn
      have hlt := Nat.lt_of_not_ge h13
      interval_cases n <;> contradiction
    simp only [Except.error.injEq, hopc, and_true]
    exact eq_comm
  all_goals
    simp only [reduceCtorEq, false_iff]
    omega

/-! ## There and back -/

/-- The word of a well-formed command holds its operands: a count of at most 65535 fits `LEN` (R70, R79). -/
theorem holdsOperands_encode {i : Instr} (h : i.wf = true) : HoldsOperands (encode i) i := by
  have hdata : dataField (encode i) = dataOf i := dataField_packWord _ _ _
  have hlen : lenField (encode i) = lenOf i := lenField_packWord _ _ _
  cases i with
  | reset | recvByte | selectDevice | selectAll | readBit => trivial
  | sendByte data | decodeBit data => exact hdata
  | writeBit bit | encodeBit bit => exact bitField_of_dataField_eq hdata
  | sendBytes len | recvBytes len | crc8 len =>
    simp only [Instr.wf, decide_eq_true_eq] at h
    rw [HoldsOperands, hlen, lenOf, BitVec.toNat_ofNat, Nat.mod_eq_of_lt (by omega)]

theorem decode_encode {i : Instr} (h : i.wf = true) : decode (encode i) = .ok i :=
  decode_eq_ok_iff.2 ⟨opcField_packWord _ _ _, holdsOperands_encode h⟩

theorem HoldsOperands.wf {w : Word} {i : Instr} (h : HoldsOperands w i) : i.wf = true := by
  cases i with
  | sendBytes len | recvBytes len | crc8 len =>
    cases h
    exact decide_eq_true (Nat.le_of_lt_succ (lenField w).isLt)
  | _ => rfl

/-- The `DATA` field assembled is the part of the word's `DATA` that the command uses (R75, R79). -/
theorem HoldsOperands.dataOf_eq {w : Word} {i : Instr} (h : HoldsOperands w i) :
    dataOf i = dataField w &&& dataField (usedBits (opcodeOf i)) := by
  rw [dataField_usedBits]
  cases i with
  | sendByte data | decodeBit data =>
    cases h
    simp [dataOf, opcodeOf, -BitVec.reduceAllOnes]
  | writeBit bit | encodeBit bit =>
    cases h
    simp [dataOf, opcodeOf, bitField, ofBit_getElem_zero]
  | _ => simp [dataOf, opcodeOf]

/-- The `LEN` field assembled is the word's `LEN` if the command uses it, else 0 (R75, R79). -/
theorem HoldsOperands.lenOf_eq {w : Word} {i : Instr} (h : HoldsOperands w i) :
    lenOf i = lenField w &&& lenField (usedBits (opcodeOf i)) := by
  rw [lenField_usedBits]
  cases i with
  | sendBytes len | recvBytes len | crc8 len =>
    cases h
    simp [lenOf, opcodeOf, -BitVec.reduceAllOnes]
  | _ => simp [lenOf, opcodeOf]

theorem encode_of_decode {w : Word} {i : Instr} (h : decode w = .ok i) : encode i = w &&& usedBits (opcField w) := by
  obtain ⟨hopc, hops⟩ := decode_eq_ok_iff.1 h
  apply eq_of_fields_eq
  · rw [opcField_and_usedBits, hopc]
    exact opcField_packWord _ _ _
  · rw [dataField_and, hopc, ← hops.dataOf_eq]
    exact dataField_packWord _ _ _
  · rw [lenField_and, hopc, ← hops.lenOf_eq]
    exact lenField_packWord _ _ _

/-- Settles O2: the word holds the opcode and the operands of the command, and the decoder reads these. -/
theorem decodeOfEncodeIsTheCommand : Obligations.DecodeOfEncodeIsTheCommand :=
  fun _ => decode_encode

/-- Settles O3: the command's operands are fields of the word, and its word is the original's, field by field. -/
theorem encodeOfDecodeKeepsTheUsedBits : Obligations.EncodeOfDecodeKeepsTheUsedBits :=
  fun _ _ h => ⟨(decode_eq_ok_iff.1 h).2.wf, encode_of_decode h⟩

/-- Clearing the bits the opcode does not use changes nothing: a command's word is assembled from the other bits, and
an illegal word is illegal by `OPC` (R75). -/
theorem decode_and_usedBits (w : Word) : decode (w &&& usedBits (opcField w)) = decode w := by
  cases h : decode w with
  | ok i =>
    rw [← encode_of_decode h]
    exact decode_encode (decode_eq_ok_iff.1 h).2.wf
  | error e =>
    rw [decode_eq_error_iff, opcField_and_usedBits]
    exact decode_eq_error_iff.1 h

/-- Settles O4: both words decode as their common used bits do. -/
theorem unusedBitsAreIgnored : Obligations.UnusedBitsAreIgnored := by
  intro w w' h
  have hopc : opcField w = opcField w' := by
    rw [← opcField_and_usedBits w (opcField w), h, opcField_and_usedBits]
  rw [← decode_and_usedBits w, h, hopc, decode_and_usedBits]

/-! ## Illegal words -/

/-- The 8-bit words of the opcode table that are no command (R72). -/
theorem decodeTableWord_eight_eq_none_iff {n : Nat} (hn : n < 256) :
    decodeTableWord 8 n = none ↔ n = 0 ∨ 0x0D ≤ n := by
  have hopc : opcField (BitVec.ofNat 32 (n % 2 ^ 8)) = BitVec.ofNat 8 n := by
    apply BitVec.eq_of_toNat_eq
    simp [opcField]
  have hillegal : decodeTableWord 8 n = none ↔
      ∃ e, decode (BitVec.ofNat 32 (n % 2 ^ 8)) = .error e := by
    unfold decodeTableWord
    cases decode (BitVec.ofNat 32 (n % 2 ^ 8)) <;> simp
  simp only [hillegal, decode_eq_error_iff, exists_eq_left, hopc, ← BitVec.toNat_inj, BitVec.toNat_ofNat]
  omega

/-- There are 244 of them: 0x00, and the 243 from 0x0D on (R72). -/
theorem length_filter_decodeTableWord_eight_eq_none :
    ((List.range 256).filter (fun n => decide (decodeTableWord 8 n = none))).length = 244 := by
  have hillegal : ∀ n ∈ List.range 256, decide (decodeTableWord 8 n = none) = decide (n = 0 ∨ 0x0D ≤ n) :=
    fun n hn => decide_eq_decide.2 (decodeTableWord_eight_eq_none_iff (List.mem_range.1 hn))
  have hsplit : List.range 256 = List.range 0x0D ++ (List.range 243).map (0x0D + ·) := by
    rw [← List.range_add]
  have hhigh : ((List.range 243).map (0x0D + ·)).filter (fun n => decide (n = 0 ∨ 0x0D ≤ n)) =
      (List.range 243).map (0x0D + ·) := List.filter_eq_self.2 (by simp)
  rw [List.filter_congr hillegal, hsplit, List.filter_append, hhigh, List.length_append, List.length_map,
    List.length_range]
  rfl

/-- Settles O7: what is illegal depends on `OPC` alone, and the `CMD` write of an illegal word only raises the flag. -/
theorem illegalWordsOnlySetCmdErr : Obligations.IllegalWordsOnlySetCmdErr := by
  refine ⟨fun w => decode_eq_error_iff.trans (and_iff_right rfl), length_filter_decodeTableWord_eight_eq_none,
    fun s w rest hhost hopc => ?_⟩
  rw [step_write hhost (g := .cmd) rfl]
  simp only [writeReg, writeCmd, decode_eq_error_iff.2 ⟨rfl, hopc⟩]
  rfl

/-! ## The commands and their words, one by one -/

/-- Settles O1: each word is decoded. -/
theorem specWordsDecode : Obligations.SpecWordsDecode := by
  unfold Obligations.SpecWordsDecode
  decide

/-- Settles O5: the word holds the opcode, and the operands are its fields. -/
theorem opcodeSelectsTheCommand : Obligations.OpcodeSelectsTheCommand := by
  intro w
  exact ⟨fun h => decode_eq_ok_iff.2 ⟨h, trivial⟩,
    fun h => decode_eq_ok_iff.2 ⟨h, rfl⟩,
    fun h => decode_eq_ok_iff.2 ⟨h, rfl⟩,
    fun h => decode_eq_ok_iff.2 ⟨h, trivial⟩,
    fun h => decode_eq_ok_iff.2 ⟨h, rfl⟩,
    fun h => decode_eq_ok_iff.2 ⟨h, trivial⟩,
    fun h => decode_eq_ok_iff.2 ⟨h, trivial⟩,
    fun h => decode_eq_ok_iff.2 ⟨h, bitField_eq_getLsbD w⟩,
    fun h => decode_eq_ok_iff.2 ⟨h, trivial⟩,
    fun h => decode_eq_ok_iff.2 ⟨h, rfl⟩,
    fun h => decode_eq_ok_iff.2 ⟨h, bitField_eq_getLsbD w⟩,
    fun h => decode_eq_ok_iff.2 ⟨h, rfl⟩⟩

/-- Settles O57: the four register accesses are computed, and each pseudo-instruction is expanded. -/
theorem assemblerWordsAndExpansions : Obligations.AssemblerWordsAndExpansions :=
  ⟨by decide, by decide, by decide, by decide, fun _ _ => ⟨rfl, rfl, rfl, rfl, rfl⟩, rfl, rfl⟩

end Sys2Proof.Machine
end

section
/-! PROOFS of the statements about the bit codec (spec 40_bit_codec.md). -/

namespace Sys2Proof.Machine

/-! ## One bit -/

theorem decBit_eq_true_iff {x : Byte} : decBit x = true ↔ x = 0xFF#8 :=
  decide_eq_true_iff

/-- The round trip of a bit (R102). -/
@[simp] theorem decBit_encBit (b : Bool) : decBit (encBit b) = b := by
  cases b <;> rfl

/-- Only the two slot bytes are kept by decoding and encoding (R102). -/
theorem encBit_decBit_eq_self_iff {x : Byte} : encBit (decBit x) = x ↔ x = 0x00#8 ∨ x = 0xFF#8 := by
  constructor
  · intro h
    rw [← h]
    cases decBit x
    · exact .inl rfl
    · exact .inr rfl
  · rintro (rfl | rfl) <;> rfl

/-- Settles O18: the two slot bytes, the one byte that decodes to 1, and both round trips. -/
theorem bitCodecRoundTrip : Obligations.BitCodecRoundTrip :=
  ⟨rfl, rfl, fun _ => decBit_eq_true_iff, decBit_encBit, fun _ => encBit_decBit_eq_self_iff⟩

/-! ## The slots of a byte -/

/-- Slot `k` has number `k`. -/
theorem slotIndices_getElem?_eq_some_iff {k : Nat} {a : BitVec 3} : slotIndices[k]? = some a ↔ k = a.toNat := by
  have hrange : slotIndices = (List.range 8).map (BitVec.ofNat 3) := rfl
  have ha := a.isLt
  rw [hrange, List.getElem?_map, Option.map_eq_some_iff]
  constructor
  · rintro ⟨n, hn, rfl⟩
    obtain ⟨hk, rfl⟩ := List.getElem?_eq_some_iff.1 hn
    rw [List.length_range] at hk
    simp [Nat.mod_eq_of_lt hk]
  · rintro rfl
    exact ⟨a.toNat, List.getElem?_range ha, by simp⟩

/-- Slot `i` of a byte carries its bit `i` (R103, R104). -/
theorem encodeByte_getElem? (b : Byte) {i : Nat} (hi : i < 8) : (encodeByte b)[i]? = some (encBit (b.getLsbD i)) := by
  have hnat : (BitVec.ofNat 3 i).toNat = i := Nat.mod_eq_of_lt hi
  have hslot : slotIndices[i]? = some (BitVec.ofNat 3 i) := slotIndices_getElem?_eq_some_iff.2 hnat.symm
  rw [encodeByte, List.getElem?_map, hslot, Option.map_some, hnat]

/-- Settles O19, slot by slot. -/
theorem encodeByteIsTheSlotList : Obligations.EncodeByteIsTheSlotList :=
  fun b => ⟨fun _ hi => encodeByte_getElem? b hi, length_encodeByte b⟩

/-! ## The byte of eight slots -/

theorem getLsbD_accBit (acc : Byte) (i : BitVec 3) (bit : Bool) (j : Nat) :
    (accBit acc i bit).getLsbD j = true ↔ acc.getLsbD j = true ∨ j = i.toNat ∧ bit = true := by
  cases bit with
  | false => simp [accBit, Byte.ofBit]
  | true =>
    have hbit : (1#8 <<< i.toNat).getLsbD j = (decide (i.toNat < 8) && decide (i.toNat = j)) :=
      BitVec.getLsbD_twoPow _ _
    simp [accBit, Byte.ofBit, hbit, i.isLt, eq_comm (a := j)]

/-- A bit of the byte is set at the start or by one of the bits added. -/
theorem getLsbD_foldl_accBit (l : List (BitVec 3 × Bool)) (acc : Byte) (j : Nat) :
    (l.foldl (fun acc ib => accBit acc ib.1 ib.2) acc).getLsbD j = true ↔
      acc.getLsbD j = true ∨ ∃ ib ∈ l, j = ib.1.toNat ∧ ib.2 = true := by
  induction l generalizing acc with
  | nil => simp
  | cons ib rest ih => rw [List.foldl_cons, ih, getLsbD_accBit, List.exists_mem_cons_iff, or_assoc]

/-- Bit `i` of the byte assembled is bit `i` of the list. -/
theorem getLsbD_byteOfBits {bits : List Bool} {i : Nat} (hi : i < 8) :
    (byteOfBits bits).getLsbD i = true ↔ bits[i]? = some true := by
  rw [byteOfBits, getLsbD_foldl_accBit, BitVec.getLsbD_zero, Bool.false_eq_true, false_or]
  constructor
  · rintro ⟨⟨a, bit⟩, hmem, rfl, rfl⟩
    obtain ⟨k, hk⟩ := List.mem_iff_getElem?.1 hmem
    obtain ⟨ha, hbit⟩ := List.getElem?_zip_eq_some.1 hk
    rwa [slotIndices_getElem?_eq_some_iff.1 ha] at hbit
  · intro hbit
    have hnat : i = (BitVec.ofNat 3 i).toNat := (Nat.mod_eq_of_lt hi).symm
    exact ⟨(BitVec.ofNat 3 i, true), List.mem_iff_getElem?.2
      ⟨i, List.getElem?_zip_eq_some.2 ⟨slotIndices_getElem?_eq_some_iff.2 hnat, hbit⟩⟩, hnat, rfl⟩

/-- `decode_bits` decodes each byte and assembles the bits (R105). -/
theorem decodeBits_eq_byteOfBits (x : List Byte) : decodeBits x = byteOfBits (x.map decBit) := by
  rw [decodeBits, byteOfBits, List.zip_map_right, List.foldl_map]
  rfl

theorem getLsbD_decodeBits {x : List Byte} {i : Nat} (hi : i < 8) :
    (decodeBits x).getLsbD i = true ↔ x[i]? = some 0xFF#8 := by
  simp [decodeBits_eq_byteOfBits, getLsbD_byteOfBits hi, decBit_eq_true_iff]

theorem decodeBits_encodeByte (b : Byte) : decodeBits (encodeByte b) = b := by
  refine BitVec.eq_of_getLsbD_eq fun i hi => Bool.eq_iff_iff.2 ?_
  rw [decodeBits_eq_byteOfBits, getLsbD_byteOfBits hi, List.getElem?_map, encodeByte_getElem? b hi, Option.map_some,
    decBit_encBit, Option.some_inj]

/-- Settles O20: the bits assembled are the decoded bytes, and those of `encode_byte` are the byte's own. -/
theorem decodeBitsAssemblesTheByte : Obligations.DecodeBitsAssemblesTheByte :=
  ⟨fun _ _ _ hi => getLsbD_decodeBits hi, decodeBits_encodeByte⟩

/-! ## RECV_BYTE -/

theorem Run.resultOrDrawByte_result (r : Run) :
    r.resultOrDrawByte.result = if r.aborted then r.st.nextDrawByte.zext else r.st.seq.acc.zext := by
  unfold Run.resultOrDrawByte
  split <;> rfl

/-- A command that ABORT ends draws nothing in its slots (R151, R153). -/
theorem drawsMade_of_abortsOn {pol : TimeoutPolicy} {as : List Answer} (h : abortsOn pol as = true) (reading : Bool) :
    drawsMade pol reading as = 0 := by
  obtain ⟨hpol, -⟩ := Bool.and_eq_true_iff.1 h
  rw [of_decide_eq_true hpol, drawsMade, if_neg (by simp)]

/-- RECV_BYTE makes eight read slots, and returns the byte of their bits, or a drawn byte if ABORT ended it (R175). -/
theorem exec_recvByte_next (s : State) :
    ∃ t, exec .recvByte s = .next t ∧ MadeSlots (readSlots 8) s t ∧
      t.result = if abortsOn s.cfg.timeoutPolicy (s.upcoming 8) then (Config.drawByte s.drawCount).setWidth 32
        else (byteOfBits (readBits (s.upcoming 8) s.drawCount)).setWidth 32 := by
  obtain ⟨hslots, hacc⟩ := Slots.recvByteSlots s.cfg (Run.start (s.begin 0x04#8))
  have hmade : SlotsFrom s.cfg true (readSlots 8) (s.begin 0x04#8) _ := hslots.made rfl
  have hab : Run.aborted _ = abortsOn s.cfg.timeoutPolicy (s.upcoming 8) := hmade.aborted
  refine ⟨_, rfl, ?_, ?_⟩
  · unfold Run.resultOrDrawByte
    split <;> exact hmade.served.slots
  · rw [State.complete_result, Run.resultOrDrawByte_result, hab]
    cases hpol : abortsOn s.cfg.timeoutPolicy (s.upcoming 8) with
    | true =>
      have hdraw := hmade.served.drawCount
      rw [length_readSlots, drawsMade_of_abortsOn hpol] at hdraw
      rw [State.nextDrawByte, hdraw]
      rfl
    | false =>
      rw [hacc rfl ((Run.going_iff _).2 ⟨hab.trans hpol, hmade.stuckAt⟩)]
      rfl

theorem sawTimeout_map_ok (x : List Byte) : sawTimeout (x.map Answer.ok) = false := by
  simp [sawTimeout]

/-- With no timeout the bits read are the decoded answers (R153). -/
theorem readBits_map_ok (x : List Byte) (d : Nat) : readBits (x.map Answer.ok) d = x.map decBit := by
  induction x with
  | nil => rfl
  | cons b rest ih => rw [List.map_cons, readBits, ih, List.map_cons]

/-- Settles O37: no slot timed out, so the byte is that of the decoded answers. -/
theorem recvByteDecodesTheObservedBytes : Obligations.RecvByteDecodesTheObservedBytes := by
  intro s x hx
  obtain ⟨t, hnext, hslots, hresult⟩ := exec_recvByte_next s
  obtain ⟨-, -, -, hsession, -⟩ := hslots
  refine ⟨t, hnext, ?_, ?_⟩
  · rw [hresult, hx, abortsOn, sawTimeout_map_ok, Bool.and_false, if_neg Bool.false_ne_true, readBits_map_ok,
      decodeBits_eq_byteOfBits]
  · rw [hsession, length_readSlots, hx, sawTimeout_map_ok, if_neg Bool.false_ne_true]

/-! ## ENCODE_BIT and DECODE_BIT -/

/-- What writing `RESULT` alone leaves (R110, R115). -/
theorem setResult_complete_frame (opc v : Byte) (s : State) :
    ((s.begin opc).setResult v).complete.session = s.session ∧
      ((s.begin opc).setResult v).complete.rate = s.rate ∧ Completed s ((s.begin opc).setResult v).complete ∧
      SameBytes s ((s.begin opc).setResult v).complete ∧ NoTraffic s ((s.begin opc).setResult v).complete :=
  ⟨rfl, rfl, ⟨rfl, rfl, rfl, rfl, rfl, rfl, rfl⟩, fun _ => rfl, rfl, rfl, rfl, rfl⟩

theorem zext_encBit (b : Bool) : (encBit b).zext = if b then 0x000000FF#32 else 0x00000000#32 := by
  cases b <;> rfl

theorem zext_ofBit_decBit (x : Byte) : (Byte.ofBit (decBit x)).zext = if x = 0xFF#8 then 1#32 else 0#32 := by
  by_cases h : x = 0xFF#8
  · rw [if_pos h, decBit_eq_true_iff.2 h]
    rfl
  · rw [if_neg h, Bool.eq_false_iff.2 (mt decBit_eq_true_iff.1 h)]
    rfl

/-- Settles O21: the operand is the word's bit 8, and only `RESULT` is written. -/
theorem encodeBitReturnsTheSlotByte : Obligations.EncodeBitReturnsTheSlotByte :=
  ⟨fun w hopc => decode_eq_ok_iff.2 ⟨hopc, bitField_eq_getLsbD w⟩,
    fun b s => ⟨_, rfl, zext_encBit b, setResult_complete_frame 0x0B#8 (encBit b) s⟩⟩

/-- Settles O22: the operand is the word's `DATA`, and only `RESULT` is written. -/
theorem decodeBitReturnsTheBit : Obligations.DecodeBitReturnsTheBit :=
  ⟨fun _ hopc => decode_eq_ok_iff.2 ⟨hopc, rfl⟩,
    fun x s => ⟨_, rfl, zext_ofBit_decBit x, setResult_complete_frame 0x0C#8 (Byte.ofBit (decBit x)) s⟩⟩

end Sys2Proof.Machine
end

section
/-! PROOFS of the statements about the CRC-8 generator (spec 41_crc8.md). -/

namespace Sys2Proof.Machine

/-! ## One bit

The accumulator and the input byte enter an iteration only by their xor, so a byte step shifts one register. -/

/-- An iteration on the accumulator `e`, with no input left (R130). -/
def crcShift (e : Byte) : Byte := (crcBitStep (e, 0x00#8)).1

/-- What an iteration feeds back when bit 0 of the xor is `b` (R130). -/
def crcFeedbackOf (b : Bool) : Byte := if b then Config.crcFeedback else 0x00#8

theorem crcFeedbackOf_xor (a b : Bool) : crcFeedbackOf (a ^^ b) = crcFeedbackOf a ^^^ crcFeedbackOf b := by
  cases a <;> cases b <;> rfl

/-- Bit 7 of the feedback value is set, and the shift leaves bit 7 clear. -/
theorem getLsbD_crcFeedbackOf_seven (b : Bool) : (crcFeedbackOf b).getLsbD 7 = b := by
  cases b <;> rfl

theorem crcBitStep_eq (c d : Byte) :
    crcBitStep (c, d) = (c >>> 1 ^^^ crcFeedbackOf ((c ^^^ d).getLsbD 0), d >>> 1) := by
  have hmix : (c ^^^ d) &&& 0x01#8 = 0x01#8 ↔ (c ^^^ d).getLsbD 0 = true := by
    rw [BitVec.and_one_eq_setWidth_ofBool_getLsbD]
    cases (c ^^^ d).getLsbD 0 <;> decide
  simp only [crcBitStep, hmix, crcFeedbackOf]
  split
  · rfl
  · rw [BitVec.xor_zero]

theorem crcShift_eq (e : Byte) : crcShift e = e >>> 1 ^^^ crcFeedbackOf (e.getLsbD 0) := by
  rw [crcShift, crcBitStep_eq, BitVec.xor_zero]

/-- The xor of accumulator and input is shifted as one register. -/
theorem crcBitStep_fst_xor_snd (c d : Byte) :
    (crcBitStep (c, d)).1 ^^^ (crcBitStep (c, d)).2 = crcShift (c ^^^ d) := by
  simp only [crcBitStep_eq, crcShift_eq, BitVec.ushiftRight_xor_distrib]
  ac_rfl

theorem crcShift_xor (a b : Byte) : crcShift (a ^^^ b) = crcShift a ^^^ crcShift b := by
  rw [crcShift_eq, crcShift_eq, crcShift_eq, BitVec.ushiftRight_xor_distrib, BitVec.getLsbD_xor, crcFeedbackOf_xor]
  ac_rfl

/-- The bit shifted out stands in bit 7 after the shift. -/
theorem getLsbD_crcShift_seven (e : Byte) : (crcShift e).getLsbD 7 = e.getLsbD 0 := by
  rw [crcShift_eq, BitVec.getLsbD_xor, getLsbD_crcFeedbackOf_seven, BitVec.getLsbD_ushiftRight,
    BitVec.getLsbD_of_ge e (1 + 7) (le_refl 8), Bool.false_xor]

/-- No bit is lost: the one shifted out is bit 7 of the result, and the others are shifted (R133). -/
theorem crcShift_injective : Function.Injective crcShift := by
  intro a b h
  have hzero : a.getLsbD 0 = b.getLsbD 0 := by
    rw [← getLsbD_crcShift_seven, h, getLsbD_crcShift_seven]
  have hshift : a >>> 1 = b >>> 1 := by
    rwa [crcShift_eq, crcShift_eq, hzero, BitVec.xor_left_inj] at h
  refine BitVec.eq_of_getLsbD_eq fun i hi => ?_
  cases i with
  | zero => exact hzero
  | succ i => simpa [Nat.add_comm] using congrArg (·.getLsbD i) hshift

/-! ## One byte -/

/-- After `n` iterations `n` bits of the input are gone, and the xor was shifted `n` times. -/
theorem crcLoop_eq (n : Nat) (c d : Byte) :
    crcLoop n (c, d) = (crcShift^[n] (c ^^^ d) ^^^ d >>> n, d >>> n) := by
  induction n generalizing c d with
  | zero => simp [crcLoop]
  | succ n ih =>
    have hsnd : (crcBitStep (c, d)).2 >>> n = d >>> (n + 1) := by
      rw [Nat.add_comm, BitVec.shiftRight_add]
      rfl
    rw [crcLoop, ih, crcBitStep_fst_xor_snd, hsnd, Function.iterate_succ_apply]

/-- A byte step is eight shifts of the xor of accumulator and byte (R130). -/
theorem crc8Step_eq (c d : Byte) : crc8Step c d = crcShift^[8] (c ^^^ d) := by
  rw [crc8Step, crcLoop_eq, BitVec.ushiftRight_eq_zero (le_refl 8), BitVec.xor_zero]

/-- Settles O24: a step is eight shifts, and each is linear. -/
theorem crcStepIsLinear : Obligations.CrcStepIsLinear := by
  intro c1 c2 d1 d2
  have hpair : (c1 ^^^ c2) ^^^ (d1 ^^^ d2) = (c1 ^^^ d1) ^^^ (c2 ^^^ d2) := by ac_rfl
  rw [crc8Step_eq, crc8Step_eq, crc8Step_eq, hpair]
  exact Function.Semiconj₂.iterate crcShift_xor 8 (c1 ^^^ d1) (c2 ^^^ d2)

/-- The step is 0 only on a byte equal to the accumulator: eight shifts are injective, and keep 0 (R133). -/
theorem crc8Step_eq_zero_iff {c d : Byte} : crc8Step c d = 0x00#8 ↔ c = d := by
  have hzero : crcShift^[8] 0x00#8 = 0x00#8 := Function.iterate_fixed (f := crcShift) rfl 8
  rw [crc8Step_eq, (crcShift_injective.iterate 8).eq_iff' hzero, BitVec.xor_eq_zero_iff]

/-! ## A list of bytes -/

theorem crc8_append_singleton (d : List Byte) (x : Byte) : crc8 (d ++ [x]) = crc8Step (crc8 d) x :=
  List.foldl_concat _ _ _ _

/-- Settles O27: the step over the last byte is 0 only if that byte is the checksum so far. -/
theorem crcAddressCheck : Obligations.CrcAddressCheck := by
  intro d x
  rw [crc8_append_singleton]
  exact crc8Step_eq_zero_iff

/-- Settles O25: the appended byte is the checksum. -/
theorem crcOfListWithItsChecksumIsZero : Obligations.CrcOfListWithItsChecksumIsZero :=
  fun d => (crcAddressCheck d (crc8 d)).2 rfl

/-- Settles O26: each further zero is the checksum of the zeros before it. -/
theorem crcOfZerosIsZero : Obligations.CrcOfZerosIsZero := by
  refine ⟨rfl, fun n => ?_⟩
  induction n with
  | zero => rfl
  | succ n ih =>
    rw [List.replicate_succ']
    exact (crcAddressCheck _ _).2 ih

/-- Settles O23: each checksum is computed. -/
theorem crcVectors : Obligations.CrcVectors := by
  unfold Obligations.CrcVectors
  decide +kernel

/-! ## The command -/

/-- Settles O28: the operand is the word's `LEN`, and on an admitted buffer only the sequencer, `CMDERR` and `RESULT` are
written. -/
theorem crcCommandReturnsTheChecksum : Obligations.CrcCommandReturnsTheChecksum := by
  refine ⟨fun _ hopc => decode_eq_ok_iff.2 ⟨hopc, rfl⟩, fun n s h => ?_⟩
  obtain ⟨q, hcrc, hx⟩ := crcSpan_admitted ((buffersAdmitted_iff _ _).1 h)
  exact ⟨_, hx, congrArg Byte.zext hcrc, rfl, rfl, ⟨rfl, rfl, rfl, rfl, rfl, rfl, rfl⟩, fun _ => rfl,
    ⟨rfl, rfl, rfl, rfl⟩⟩

/-- Settles O29: where the loop stops, only the sequencer and `CMDERR` are written. -/
theorem crcCommandStuckAtUnadmittedByte : Obligations.CrcCommandStuckAtUnadmittedByte := by
  intro n k s hk h hn
  obtain ⟨q, hop, hx⟩ := crcSpan_unadmitted hk h hn
  exact ⟨_, hx, rfl, rfl, rfl, hop, fun _ => rfl, ⟨rfl, rfl, rfl, rfl⟩⟩

end Sys2Proof.Machine
end

section
/-! PROOFS of the statements about the bus session (spec 42_bus_session.md). -/

namespace Sys2Proof.Machine

/-! ## One slot -/

/-- Settles O30: the answer is the one that comes next. -/
theorem slotMakesOneXfer : Obligations.SlotMakesOneXfer := by
  intro p tx s
  refine ⟨s.nextAnswer, s.upcoming_one, ?_, ?_, slot_fst p tx s⟩
  · rw [slot_snd]; rfl
  · rw [slot_snd]; rfl

/-! ## RESET -/

/-- RESET's slot uses up one answer, and RESET draws nothing (R160). -/
theorem afterResetSlot_traffic (p : Params) (u : State) :
    (afterResetSlot p u).answers = u.answers.tail ∧ (afterResetSlot p u).xferCount = u.xferCount + 1 ∧
      (afterResetSlot p u).drawCount = u.drawCount := by
  unfold afterResetSlot
  rw [slot_snd]
  exact ⟨rfl, rfl, rfl⟩

/-- `RESULT` is 1 exactly when a byte other than the pattern was observed (R160, R224). -/
theorem afterResetSlot_result (p : Params) (u : State) :
    (afterResetSlot p u).result = match observed p.wiredAnd p.resetPattern u.nextAnswer with
      | .ok rx => if rx = p.resetPattern then 0#32 else 1#32
      | .timeout => 0#32 := by
  rw [afterResetSlot, State.complete_result, State.setResult_result, slot_fst]
  cases observed p.wiredAnd p.resetPattern u.nextAnswer with
  | ok rx => by_cases h : rx = p.resetPattern <;> simp [presence, h, Byte.ofBit, Byte.zext]
  | timeout => rfl

theorem observed_eq_timeout_iff {w : Bool} {tx : Byte} {a : Answer} : observed w tx a = .timeout ↔ a = .timeout := by
  cases a <;> simp [observed]

/-- Settles O31, from the state RESET makes its slot in. -/
theorem resetCommandReportsPresence : Obligations.ResetCommandReportsPresence := by
  refine ⟨fun _ hopc => decode_eq_ok_iff.2 ⟨hopc, trivial⟩, fun s => ?_⟩
  obtain ⟨u, hu, hx⟩ := execReset_eq s
  obtain ⟨hanswers, hcount, hdraw⟩ := afterResetSlot_traffic s.cfg u
  refine ⟨_, _, hx, ⟨s.nextAnswer, s.upcoming_one, rfl⟩, ?_, ?_, ?_, rfl, afterResetSlot_completed s.cfg hu,
    fun a => ?_, hanswers.trans (congrArg List.tail hu.answers), ?_, hdraw.trans hu.drawCount⟩
  · rw [afterResetSlot_calls, hu.calls, hu.nextAnswer, List.append_assoc]
    rfl
  · rw [← hu.nextAnswer]
    exact afterResetSlot_result s.cfg u
  · simp only [observed_eq_timeout_iff]
    rw [afterResetSlot_session, hu.session, hu.nextAnswer]
  · rw [afterResetSlot_mem, hu.mem]
  · rw [hcount, hu.xferCount]

/-! ## Commands that only send -/

/-- What a command that only sends leaves once it completes: the frame of SEND_BYTE (R165). -/
theorem Served.sendFrame {txs : List Byte} {s t : State} (h : Served false txs s t) :
    MadeSlots txs s t.complete ∧ t.complete.result = s.result ∧ Completed s t.complete ∧ SameBytes s t.complete ∧
      t.complete.drawCount = s.drawCount :=
  ⟨h.slots, h.result, h.completed, h.sameBytes, h.noDraws⟩

/-- Settles O33: the operand is the word's `DATA`, and the command is the slots of one byte. -/
theorem sendByteSendsEightSlots : Obligations.SendByteSendsEightSlots :=
  ⟨fun _ hopc => decode_eq_ok_iff.2 ⟨hopc, rfl⟩,
    fun b s => ⟨_, rfl, ((Slots.sendByteSlots s.cfg b (Run.start (s.begin 0x02#8))).made rfl).served.sendFrame⟩⟩

/-- Settles O45: the command is the slots of one byte. -/
theorem selectAllSendsSkipRom : Obligations.SelectAllSendsSkipRom :=
  ⟨fun _ hopc => decode_eq_ok_iff.2 ⟨hopc, trivial⟩, fun s =>
    ⟨_, rfl, ((Slots.sendByteSlots s.cfg s.cfg.skipRomCmd (Run.start (s.begin 0x07#8))).made rfl).served.sendFrame⟩⟩

/-- Settles O41: the operand is the word's bit 8, and the command is one slot. -/
theorem writeBitSendsOneSlot : Obligations.WriteBitSendsOneSlot :=
  ⟨fun w hopc => decode_eq_ok_iff.2 ⟨hopc, bitField_eq_getLsbD w⟩,
    fun b s => ⟨_, rfl, ((Slots.writeSlot s.cfg b (Run.start (s.begin 0x08#8))).made rfl).served.sendFrame⟩⟩

/-- A sending loop over an admitted buffer completes, after the slots made before it and those of its bytes. -/
theorem sendSpan_admitted {s : State} {opc : Byte} {txs0 : List Byte} {r0 : Run} {n : Nat}
    (e0 : Slots s.cfg false txs0 (Run.start (s.begin opc)) r0)
    (h : ∀ j < n, admits s.cfg (s.addr.toNat + j) = true) :
    ∃ t, (Run.sendSpan s.cfg s.base n 0 r0).finish = .next t ∧
      MadeSlots (txs0 ++ byteSlots ((List.range n).map (fun j => s.mem.read (s.addr.toNat + j)))) s t ∧
      t.result = s.result ∧ Completed s t ∧ SameBytes s t ∧ t.drawCount = s.drawCount :=
  have e := SlotsFrom.sendSpan e0 h
  ⟨_, Run.finish_next e.stuckAt, e.served.sendFrame⟩

/-- Settles O34: the operand is the word's `LEN`, and the command is a sending loop with no slot before it. -/
theorem sendBytesSendsTheBuffer : Obligations.SendBytesSendsTheBuffer :=
  ⟨fun _ hopc => decode_eq_ok_iff.2 ⟨hopc, rfl⟩, fun _ s h =>
    sendSpan_admitted (Slots.none s.cfg false (Run.start (s.begin 0x03#8))) ((buffersAdmitted_iff _ _).1 h)⟩

/-- Settles O43: a sending loop, after the eight slots of Match-ROM. -/
theorem selectDeviceSendsTheAddress : Obligations.SelectDeviceSendsTheAddress :=
  ⟨fun _ hopc => decode_eq_ok_iff.2 ⟨hopc, trivial⟩, fun s h =>
    sendSpan_admitted (Slots.sendByteSlots s.cfg s.cfg.matchRomCmd (Run.start (s.begin 0x06#8)))
      ((buffersAdmitted_iff _ _).1 h)⟩

/-! ## RECV_BYTE and READ_BIT -/

/-- Settles O36: the slots and `RESULT` are RECV_BYTE's own, and the frame is that of every command. -/
theorem recvByteReturnsTheByte : Obligations.RecvByteReturnsTheByte := by
  refine ⟨fun _ hopc => decode_eq_ok_iff.2 ⟨hopc, trivial⟩, fun s => ?_⟩
  obtain ⟨t, hx, hslots, hresult⟩ := exec_recvByte_next s
  exact ⟨t, hx, hslots, hresult, everyCommandKeepsCmdAndAddr _ s t hx,
    (onlyRecvBytesWritesMemory _ s t hx).2 (fun _ => nofun)⟩

theorem resultOrDrawBit_result (x : Bool × Run) :
    (resultOrDrawBit x).result = (Byte.ofBit (if x.2.aborted then x.2.st.nextDrawBit else x.1)).zext := by
  unfold resultOrDrawBit
  split <;> rfl

/-- READ_BIT makes one read slot and returns its bit: a timed-out slot draws it under CONTINUE, the command's end under
ABORT, and it is the same draw (R153, R190). -/
theorem exec_readBit_next (s : State) :
    ∃ t b, exec .readBit s = .next t ∧ MadeSlots [Config.release] s t ∧
      [b] = readBits (s.upcoming 1) s.drawCount ∧ t.result = (Byte.ofBit b).zext := by
  have hbit : [_] = readBits (s.upcoming 1) s.drawCount :=
    Run.readSlot_fst s.cfg (r := Run.start (s.begin 0x09#8)) rfl
  have hmade : SlotsFrom s.cfg true [Config.release] (s.begin 0x09#8) _ :=
    (Slots.readSlot s.cfg (Run.start (s.begin 0x09#8))).made rfl
  have hab : Run.aborted _ = abortsOn s.cfg.timeoutPolicy (s.upcoming 1) := hmade.aborted
  refine ⟨_, _, rfl, ?_, ?_, resultOrDrawBit_result _⟩
  · unfold resultOrDrawBit
    split <;> exact hmade.served.slots
  · rw [hab]
    cases hpol : abortsOn s.cfg.timeoutPolicy (s.upcoming 1) with
    | true =>
      have htimeout : s.nextAnswer = .timeout := by
        simpa [State.upcoming_one, sawTimeout, eq_comm] using sawTimeout_of_abortsOn hpol
      have hdraw := hmade.served.drawCount
      rw [List.length_singleton, drawsMade_of_abortsOn hpol] at hdraw
      rw [State.upcoming_one, htimeout, if_pos rfl, State.nextDrawBit, hdraw]
      rfl
    | false => exact hbit

theorem zext_ofBit (b : Bool) : (Byte.ofBit b).zext = if b then 1#32 else 0#32 := by
  cases b <;> rfl

/-- Settles O42, by the answer. -/
theorem readBitReturnsTheBit : Obligations.ReadBitReturnsTheBit := by
  refine ⟨fun _ hopc => decode_eq_ok_iff.2 ⟨hopc, trivial⟩, fun s => ?_⟩
  obtain ⟨t, b, hx, hslots, hbit, hresult⟩ := exec_readBit_next s
  refine ⟨t, s.nextAnswer, hx, s.upcoming_one, hslots, ?_, everyCommandKeepsCmdAndAddr _ s t hx,
    (onlyRecvBytesWritesMemory _ s t hx).2 (fun _ => nofun)⟩
  rw [State.upcoming_one] at hbit
  cases ha : s.nextAnswer with
  | ok rx =>
    rw [ha] at hbit
    rw [hresult, List.singleton_inj.1 hbit, zext_ofBit_decBit]
  | timeout =>
    rw [ha] at hbit
    rw [hresult, List.singleton_inj.1 hbit, zext_ofBit]

/-! ## RECV_BYTES -/

/-- What the buffer holds after the bytes `bs` are stored from `ADDR` on: they read back in a canonical memory, and every
other byte reads as before (R52, R180). -/
theorem read_of_mem_eq_storeFrom {s t : State} {bs : List Byte} (hmem : t.mem = storeFrom s.addr.toNat 0 bs s.mem) :
    (s.mem.wf = true → ∀ j (h : j < bs.length), t.mem.read (s.addr.toNat + j) = bs[j]) ∧
      ∀ a, (∀ j < bs.length, a ≠ s.addr.toNat + j) → t.mem.read a = s.mem.read a := by
  rw [hmem]
  refine ⟨fun hwf j hj => ?_, fun a ha => ?_⟩
  · simpa [effAddr] using storeFrom_same s.addr.toNat 0 bs hwf hj
  · exact storeFrom_other _ _ _ _ (by simpa [effAddr] using ha)

/-- Settles O38: the operand is the word's `LEN`, and the command is a receiving loop over an admitted buffer. -/
theorem recvBytesStoresTheBytes : Obligations.RecvBytesStoresTheBytes := by
  refine ⟨fun _ hopc => decode_eq_ok_iff.2 ⟨hopc, rfl⟩, fun n s h => ?_⟩
  obtain ⟨t, hx, ht, hcompleted, hmem⟩ := recvSpan_admitted (opc := 0x05#8) ((buffersAdmitted_iff _ _).1 h)
  obtain ⟨hstored, hothers⟩ := read_of_mem_eq_storeFrom hmem
  exact ⟨t, _, hx, rfl, ht.slots, hstored, hothers, ht.result, hcompleted⟩

theorem State.take_upcoming (s : State) {m n : Nat} (h : m ≤ n) : (s.upcoming n).take m = s.upcoming m := by
  obtain ⟨d, rfl⟩ := Nat.exists_eq_add_of_le h
  rw [upcoming_split]
  exact List.take_left' (s.length_upcoming m)

/-- Where ABORT ended the command in its first slots, further slots would not have been made (R151). -/
theorem MadeSlots.append_of_abortsOn {txs : List Byte} {s t : State} (h : MadeSlots txs s t)
    (hab : abortsOn s.cfg.timeoutPolicy (s.upcoming txs.length) = true) (more : List Byte) :
    MadeSlots (txs ++ more) s t := by
  have hup := upcoming_split s txs.length more.length
  have hused : usedAnswers s.cfg.timeoutPolicy (s.upcoming (txs ++ more).length) =
      usedAnswers s.cfg.timeoutPolicy (s.upcoming txs.length) := by
    rw [List.length_append, hup, usedAnswers_append, if_pos hab]
  have hsaw : sawTimeout (s.upcoming (txs ++ more).length) = sawTimeout (s.upcoming txs.length) := by
    rw [List.length_append, hup, sawTimeout_append, sawTimeout_of_abortsOn hab, Bool.true_or]
  have hlen : (usedAnswers s.cfg.timeoutPolicy (s.upcoming txs.length)).length ≤ txs.length := by
    simpa using length_usedAnswers_le s.cfg.timeoutPolicy (s.upcoming txs.length)
  unfold MadeSlots
  rw [hused, hsaw, slotCalls_append_short _ _ hlen]
  exact h

/-- A RECV_BYTES that completes, over its whole buffer or ended by ABORT before a byte that is not admitted, made the
slots of all its bytes as far as ABORT let it, and stored the whole bytes received (R151, R180). -/
theorem exec_recvBytes_next {n : Nat} {s t : State} (hx : exec (.recvBytes n) s = .next t) :
    MadeSlots (readSlots (8 * n)) s t ∧
      t.mem = storeFrom s.addr.toNat 0
        (bytesReceived s.cfg.timeoutPolicy n (s.upcoming (8 * n)) s.drawCount) s.mem := by
  rcases admitted_or_first s.cfg s.addr.toNat n with h | ⟨k, hk, h, hn⟩
  · obtain ⟨t', hfin, ht, -, hmem⟩ := recvSpan_admitted (opc := 0x05#8) h
    cases hfin.symm.trans hx
    exact ⟨ht.slots, hmem⟩
  · obtain ⟨t', hfin, ht, hmem, -⟩ := recvSpan_unadmitted (opc := 0x05#8) hk h hn
    rw [exec, execRecvBytes, hfin] at hx
    split at hx
    · rename_i hab
      cases hx
      have hslots : MadeSlots (readSlots (8 * (k + 1))) s t := ht.slots
      refine ⟨?_, ?_⟩
      · rw [show 8 * n = 8 * (k + 1) + 8 * (n - (k + 1)) by omega, readSlots_add]
        exact hslots.append_of_abortsOn (by rwa [length_readSlots]) _
      · rw [bytesReceived_of_abortsOn _ _ hk (by rwa [s.take_upcoming (by omega)]), s.take_upcoming (by omega)]
        exact hmem
    · cases hx

/-- The answers ABORT lets a command use are those through the first timeout. -/
theorem usedAnswers_of_abortsOn {pol : TimeoutPolicy} {as : List Answer} (h : abortsOn pol as = true) :
    usedAnswers pol as = throughTimeout as := by
  obtain ⟨hpol, -⟩ := Bool.and_eq_true_iff.1 h
  rw [of_decide_eq_true hpol]
  rfl

/-- Settles O39: the calls made are those of the answers used, so their number and whether one timed out say how many
whole bytes came. -/
theorem recvBytesCountsWholeBytes : Obligations.RecvBytesCountsWholeBytes := by
  intro n s t hx
  obtain ⟨⟨hcalls, -⟩, hmem⟩ := exec_recvBytes_next hx
  obtain ⟨hstored, hothers⟩ := read_of_mem_eq_storeFrom hmem
  rw [length_readSlots] at hcalls
  have hle : (usedAnswers s.cfg.timeoutPolicy (s.upcoming (8 * n))).length ≤ (readSlots (8 * n)).length := by
    simpa using length_usedAnswers_le s.cfg.timeoutPolicy (s.upcoming (8 * n))
  have hended : (s.cfg.timeoutPolicy = .abort ∧ ∃ tx, TransportCall.xfer tx .timeout ∈
      slotCalls s.cfg.wiredAnd (readSlots (8 * n)) (usedAnswers s.cfg.timeoutPolicy (s.upcoming (8 * n)))) ↔
      abortsOn s.cfg.timeoutPolicy (s.upcoming (8 * n)) = true := by
    rw [timeout_mem_slotCalls hle, timeout_mem_usedAnswers, abortsOn, Bool.and_eq_true, decide_eq_true_eq]
  refine ⟨_, _, hcalls, rfl, ?_, hstored, hothers⟩
  simp only [hended]
  rw [length_bytesReceived _ _ (s.length_upcoming (8 * n)), length_slotCalls hle]
  split
  · rename_i hab
    rw [usedAnswers_of_abortsOn hab]
  · rfl

end Sys2Proof.Machine
end

section
/-! PROOFS of the statements about errors (spec 60_exceptions.md). -/

namespace Sys2Proof.Machine

/-! ## NoPresence -/

/-- Of the calls RESET adds, only its slot is an `Xfer`: one that observed `rx` is there exactly if that was the slot's
answer (R160). -/
theorem xfer_ok_mem_reset_calls_iff {s t : State} {a : Answer} (tx rx : Byte)
    (hcalls : t.calls = s.calls ++ (if s.session = .ok then [] else [.reinit]) ++
      [.setSpeed .reset, .xfer tx a, .setSpeed .data]) :
    TransportCall.xfer tx (.ok rx) ∈ t.calls.drop s.calls.length ↔ a = .ok rx := by
  rw [hcalls, List.append_assoc, List.drop_left]
  split <;> simp [eq_comm]

/-- Settles O32, by the answer of RESET's slot. -/
theorem successfulResetMeansPresence : Obligations.SuccessfulResetMeansPresence := by
  intro s t hx
  obtain ⟨t', a, hx', -, hcalls, hresult, hsession, -⟩ := resetCommandReportsPresence.2 s
  cases hx'.symm.trans hx
  simp only [xfer_ok_mem_reset_calls_iff _ _ hcalls, successfulReset, hresult, hsession]
  cases a with
  | ok rx => by_cases h : rx = s.cfg.resetPattern <;> simp [h]
  | timeout => simp

/-! ## Completion -/

/-- Settles O46: a command that did not complete would be stuck at a byte of its buffer that is not admitted (R53). -/
theorem admittedCommandsComplete : Obligations.AdmittedCommandsComplete := by
  intro i s hadm
  have hends := exec_endsWithin i s
  generalize exec i s = o at hends ⊢
  cases hends with
  | next t => exact ⟨t, rfl⟩
  | stuck k held hk hn _ =>
    exact absurd ((buffersAdmitted_iff i s).1 hadm k hk) (ne_true_of_eq_false hn)

end Sys2Proof.Machine
end

section
/-! PROOFS of the statements about block reset (spec 70_reset_and_hazards.md). -/

namespace Sys2Proof.Machine

/-- `STATUS` reads 0 when each of its fields holds its reset value (R24). -/
theorem statusWord_eq_zero {s : State} (hrate : s.rate = .data) (herr : s.cmdErr = false) (hses : s.session = .ok) :
    s.statusWord = 0#32 := by
  simp only [State.statusWord, hrate, herr, hses]
  decide

/-- Settles O15: the fields are those `State.reset` is built from, and `STATUS` reads 0 as they do. -/
theorem resetStateValues : Obligations.ResetStateValues :=
  ⟨rfl, rfl, rfl, rfl, rfl, rfl, statusWord_eq_zero rfl rfl rfl, rfl⟩

/-- Settles O55: memory lists no byte, so it is canonical and lists none that is not admitted, and no call has changed
the transport's speed; the other parts are values of O15. -/
theorem resetMeetsTheInvariant : Obligations.ResetMeetsTheInvariant := by
  obtain ⟨-, -, hresult, hsession, -, hrate, -, hop⟩ := resetStateValues
  have hadm : ∀ c ∈ State.reset.mem, admits State.reset.cfg c.1 = true := List.forall_mem_nil _
  have hlt : State.reset.result.toNat < 256 := by simp [hresult]
  have hses : State.reset.session ≠ .mismatch := by simp [hsession]
  exact ⟨Memory.wf_nil, hadm, hlt, hrate, rfl, hop, hses⟩

end Sys2Proof.Machine
end

section
/-! PROOFS of the statement about the wired-AND premise (spec 60_exceptions.md section 4; log 8). -/

namespace Sys2Proof.Machine

@[simp] theorem wiredAndCall_setSpeed (r : Rate) : wiredAndCall (.setSpeed r) = true := rfl
@[simp] theorem wiredAndCall_reinit : wiredAndCall .reinit = true := rfl

/-- Masking with the byte sent clears every bit that was sent low (R233; log 8). -/
@[simp] theorem wiredAndCall_xfer_observed (tx : Byte) (a : Answer) :
    wiredAndCall (.xfer tx (observed true tx a)) = true := by
  cases a with
  | ok rx => simp [observed, wiredAndCall, BitVec.and_assoc]
  | timeout => rfl

theorem wiredAndCall_of_mem_slotCalls {txs : List Byte} {as : List Answer} {c : TransportCall}
    (h : c ∈ slotCalls true txs as) : wiredAndCall c = true := by
  unfold slotCalls at h
  obtain ⟨k, hk, rfl⟩ := List.mem_iff_getElem.1 h
  rw [List.getElem_zipWith]
  exact wiredAndCall_xfer_observed _ _

/-- Of the calls RESET adds, only its slot is an `Xfer` (R160). -/
theorem wiredAndCall_of_mem_afterResetSlot_calls {s u : State} (hu : BeforeResetSlot s u) {p : Params}
    (hp : p.wiredAnd = true) (hs : ∀ c ∈ s.calls, wiredAndCall c = true) :
    ∀ c ∈ (afterResetSlot p u).calls, wiredAndCall c = true := by
  have hrecover : ∀ c ∈ (if s.session = .ok then [] else [TransportCall.reinit]), wiredAndCall c = true := by
    split <;> simp
  rw [afterResetSlot_calls, hu.calls, hp]
  simp only [List.forall_mem_append]
  exact ⟨⟨⟨hs, hrecover⟩, by simp⟩, by simp⟩

/-- Settles O53: the slot of RESET, and every slot of another command, has its answer masked. -/
theorem wiredAndHoldsOfEveryCall : Obligations.WiredAndHoldsOfEveryCall := by
  intro i s t hx hw hs
  by_cases hi : i = .reset
  · subst hi
    obtain ⟨u, hu, rfl⟩ := execReset_next hx
    exact wiredAndCall_of_mem_afterResetSlot_calls hu hw hs
  · obtain ⟨txs, ⟨hcalls, -⟩, -⟩ := (exec_next hi hx).slots
    rw [hcalls, hw, List.forall_mem_append]
    exact ⟨hs, fun c => wiredAndCall_of_mem_slotCalls⟩

end Sys2Proof.Machine
end

section
/-! PROOFS of the statements about the host's actions that are no register access, and about a block that has none to do
(logs 9, 10 and 12). -/

namespace Sys2Proof.Machine

theorem step_cons {s : State} {a : HostAction} {rest : List HostAction} (h : s.host = a :: rest) :
    step s = hostStep a rest s := by
  simp only [step, h]

/-- Settles O12: a poke and a peek, each by whether its byte is admitted. -/
theorem hostBufferAccesses : Obligations.HostBufferAccesses := by
  intro s a v rest
  refine ⟨fun hhost hadm => ?_, fun hhost hadm => ?_, fun hhost hadm => ?_, fun hhost hadm => ?_⟩
  · rw [step_cons hhost, hostStep, if_pos hadm]
    rfl
  · rw [step_cons hhost, hostStep, if_pos hadm]
    rfl
  · rw [step_cons hhost, hostStep, if_neg (ne_true_of_eq_false hadm)]
  · rw [step_cons hhost, hostStep, if_neg (ne_true_of_eq_false hadm)]

/-- Settles O13: with an empty list there is no action to perform (log 10). -/
theorem waitingBlockHoldsItsState : Obligations.WaitingBlockHoldsItsState := by
  intro s hhost
  simp only [step, hhost]

/-- Settles O14: the next state is `State.blockReset`, which writes R250's registers and keeps every other field; `STATUS`
reads 0 as its fields do. -/
theorem blockResetValues : Obligations.BlockResetValues := by
  intro s rest hhost
  have hstep : step s = .next (s.setHost rest).blockReset := step_cons hhost
  have hstatus : (s.setHost rest).blockReset.statusWord = 0#32 := statusWord_eq_zero rfl rfl rfl
  exact ⟨_, hstep, rfl, rfl, rfl, rfl, rfl, rfl, hstatus, rfl, rfl, rfl, rfl, rfl, rfl, rfl, rfl, rfl⟩

end Sys2Proof.Machine
end
